-- ==== Sys2Proof/Word.lean ====
section
/-! DEFINITION. The word types of the machine (spec/00_scope.md section 4): 16-bit operands and buses, the 40-bit
accumulator, the 24-bit word of the general-knowledge encoding. Bit 0 is the least significant bit (R7). -/

namespace Sys2Proof

/-- The operand, register and bus width, 16 bits (00_scope.md section 4). -/
abbrev Word := BitVec 16

/-- The width of MR and of the adder/subtractor, 40 bits (R24, R141). -/
abbrev Acc := BitVec 40

/-- The width of the words of the general-knowledge encoding appendix, 24 bits (R89). -/
abbrev Code := BitVec 24

end Sys2Proof
end

