-- ==== Sys2Proof/Config.lean ====
section
/-! DEFINITION. What the spec leaves open: the parameters of 00_scope.md rule R6, and the free values (`draw` of
rule R8). Each is an opaque constant, so that nothing proved about the machine depends on a value of it. -/

namespace Sys2Proof

/-- The two values of the parameter MAC_UU_EXTENSION (R146): how a product of two unsigned operands is read by the
40-bit adder. -/
inductive UuExtension where
  | zero
  | sign
  deriving DecidableEq, Repr, Inhabited

/-- The flags that a bus word of ASTAT holds (R28): the six ALU flags of R26 and MV (R27). -/
inductive AstatFlag where
  | AZ | AN | AV | AC | AS | AQ | MV
  deriving DecidableEq, Repr

/-- The flags in the order in which the source lists them, MV last (R28). -/
def AstatFlag.all : List AstatFlag := [.AZ, .AN, .AV, .AC, .AS, .AQ, .MV]

/-- A flag's place in that order. -/
def AstatFlag.index : AstatFlag → Fin 16
  | .AZ => 0
  | .AN => 1
  | .AV => 2
  | .AC => 3
  | .AS => 4
  | .AQ => 5
  | .MV => 6

/-- The values of the parameter ASTAT_LAYOUT (R28), an injective placing of the seven flags in the bits of a 16-bit
word: flag number k stands in bit (layout k). Every injective placing of seven flags is the beginning of a
permutation of the sixteen bit numbers. The family's layout (93_implementation_defined.md K3) is the identity. -/
abbrev AstatLayout := Equiv.Perm (Fin 16)

/-- The bit position of a flag, `ASTAT_LAYOUT(F)` of R178 and R179. -/
def AstatLayout.position (layout : AstatLayout) (f : AstatFlag) : Fin 16 := layout f.index

/-- The set `writes` of R106: which of AZ, AN, AV, AC an ALU function writes. -/
structure AluMask where
  AZ : Bool
  AN : Bool
  AV : Bool
  AC : Bool
  deriving DecidableEq, Repr, Inhabited

/-- What an ALU function answers (R100, R106): a result, an overflow indication, a carry and the flags it writes. -/
structure AluOutcome where
  result : Word
  ov     : Bool
  carry  : Bool
  writes : AluMask
  deriving DecidableEq, Repr, Inhabited

/-- An entry of the ALU function table (R106): a total function of x, y and the carry in. -/
abbrev AluFunction := Word → Word → Bool → AluOutcome

/-- ALU_REGS_BANKED (R34): whether AX0, AX1, AY0, AY1, AF and AR have a second copy in the secondary bank. -/
opaque Config.aluRegsBanked : Bool

/-- ASTAT_LAYOUT (R28). -/
opaque Config.astatLayout : AstatLayout

/-- MR1_LOAD_SIGN_EXTENDS (R177): whether a bus write of MR1 sign-extends it into MR2. -/
opaque Config.mr1LoadSignExtends : Bool

/-- MAC_UU_EXTENSION (R146). -/
opaque Config.macUuExtension : UuExtension

/-- PMD_WIDTH (00_scope.md section 4). No rule depends on it: only the sixteen bits that reach MY0 or MY1 are
described (R181). -/
opaque Config.pmdWidth : Nat

/-- The ALU function table (R106), of which nothing is assumed but that an entry depends on its arguments alone. -/
opaque Config.aluFunction : Nat → AluFunction

/-- A free bit, the draw of R150: MV after a MAC operation with destination MF. -/
opaque Config.freeBit : Nat → Bool

/-- A free word, the draws of R178: the bits of a read of ASTAT in which no flag stands. -/
opaque Config.freeWord : Nat → Word

end Sys2Proof
end

