-- ==== Sys2Proof/Syntax.lean ====
section
/-! DEFINITION. The operations, one constructor for each row of spec/opcode_table.json (30_encoding.md rule R81), and
their operands (rules R82, R84, R106, R171). Where a rule names a form and refuses it, the form can be written here
and is refused by name when it is executed. -/

namespace Sys2Proof

/-- XOPS (R82): AX0, AX1 and the result registers on the R bus. -/
inductive AluXop where
  | ax0 | ax1 | ar | mr0 | mr1 | mr2 | sr0 | sr1
  deriving DecidableEq, Repr

/-- The yop field of DIVS. R82 admits AY1 and AF; R83 refuses the others, AY0 and code 3 of R89 (zero). -/
inductive DivsYop where
  | ay0 | ay1 | af | zero
  deriving DecidableEq, Repr

/-- The yop of the abstract ALU operation (R106). -/
inductive AluYop where
  | ay0 | ay1 | af
  deriving DecidableEq, Repr

/-- The destination of the abstract ALU operation (R106). -/
inductive AluDest where
  | ar | af
  deriving DecidableEq, Repr

/-- XOPS_MAC (R82): MX0, MX1 and the result registers on the R bus. -/
inductive MacXop where
  | mx0 | mx1 | ar | mr0 | mr1 | mr2 | sr0 | sr1
  deriving DecidableEq, Repr

/-- The yop field of a MAC operation. YOPS_MAC of R82 admits MY0, MY1 and MF; code 3 of R89 (zero) is refused, but
for the word that is MRCLR. -/
inductive MacYop where
  | my0 | my1 | mf | zero
  deriving DecidableEq, Repr

/-- The destination of a MAC operation (R82). -/
inductive MacDest where
  | mr | mf
  deriving DecidableEq, Repr

/-- The input format of a MAC operation (R84), the first letter for X and the second for Y. -/
inductive Fmt where
  | ss | su | us | uu
  deriving DecidableEq, Repr

/-- The condition field of a MAC word (R89). -/
abbrev Cond := BitVec 4

/-- The condition 1111, always (R89); R157 refuses every other. -/
def Cond.always : Cond := 15#4

/-- The registers a bus access may name (R171). ASTAT has operations of its own. -/
inductive Reg where
  | ax0 | ax1 | ay0 | ay1 | af | ar | sr0 | sr1
  | mx0 | mx1 | my0 | my1 | mf | mr0 | mr1 | mr2 | mstat
  deriving DecidableEq, Repr

/-- An operation (R81). -/
inductive Instr where
  /-- `DIVS yop, xop` (R123). -/
  | divs (yop : DivsYop) (xop : AluXop)
  /-- `DIVQ xop` (R126). -/
  | divq (xop : AluXop)
  /-- `MUL dest, xop, yop, fmt` (R151), with the condition field of its word. -/
  | mul (dest : MacDest) (xop : MacXop) (yop : MacYop) (fmt : Fmt) (cond : Cond)
  /-- `MACADD dest, xop, yop, fmt` (R152), with the condition field of its word. -/
  | macadd (dest : MacDest) (xop : MacXop) (yop : MacYop) (fmt : Fmt) (cond : Cond)
  /-- `MACSUB dest, xop, yop, fmt` (R153), with the condition field of its word. -/
  | macsub (dest : MacDest) (xop : MacXop) (yop : MacYop) (fmt : Fmt) (cond : Cond)
  /-- `MRCLR` (R154), with the condition field of its word. -/
  | mrclr (cond : Cond)
  /-- `BusRead r`, r other than ASTAT (R173). -/
  | busRead (r : Reg)
  /-- `BusRead ASTAT` (R178). -/
  | busReadAstat
  /-- `BusWrite r, v` (R174, R177); with r = MR2 another spelling of `busWriteMr2`. -/
  | busWrite (r : Reg) (v : Word)
  /-- `BusWrite MR2, v` (R175). -/
  | busWriteMr2 (v : Word)
  /-- `BusWrite ASTAT, v` (R179). -/
  | busWriteAstat (v : Word)
  /-- `PmdWrite r, v` (R181). -/
  | pmdWrite (r : Reg) (v : Word)
  /-- `PmdRead r` (R182). -/
  | pmdRead (r : Reg)
  /-- `SetMode bit, value` (R180). -/
  | setMode (bit : Nat) (value : Bool)
  /-- `ALUOP f, dest, xop, yop` (R106); f is an index of the ALU function table. -/
  | aluop (f : Nat) (dest : AluDest) (xop : AluXop) (yop : AluYop)
  /-- `ABS`, named and not described (R105). -/
  | abs
  deriving DecidableEq, Repr

end Sys2Proof
end

