-- ==== Sys2Proof/WellFormed.lean ====
section
/-! DEFINITION. The admission function of the grammar, 30_encoding.md rule R81: which operations the spec admits.
It is written from R81, R82 and the access table of R171, apart from the meanings; the statement that a meaning
completes exactly on the admitted operations compares the two. -/

namespace Sys2Proof

/-- The yops of DIVS that R82 lists. -/
def DivsYop.admitted : DivsYop → Bool
  | .ay1 => true
  | .af => true
  | .ay0 => false
  | .zero => false

/-- YOPS_MAC (R82). -/
def MacYop.admitted : MacYop → Bool
  | .my0 => true
  | .my1 => true
  | .mf => true
  | .zero => false

/-- DMD_READABLE (R171), ASTAT apart. -/
def Reg.dmdReadable : Reg → Bool
  | .ax0 | .ax1 | .ay0 | .ay1 | .ar | .mx0 | .mx1 | .my0 | .my1 | .mr0 | .mr1 | .mr2 => true
  | .af | .sr0 | .sr1 | .mf | .mstat => false

/-- DMD_WRITABLE (R171), ASTAT apart. -/
def Reg.dmdWritable : Reg → Bool
  | .ax0 | .ax1 | .ay0 | .ay1 | .ar | .mx0 | .mx1 | .my0 | .my1 | .mr0 | .mr1 | .mr2 => true
  | .af | .sr0 | .sr1 | .mf | .mstat => false

/-- The registers on the PMD bus, MY0 and MY1 (R171, R181, R182). -/
def Reg.onPmd : Reg → Bool
  | .my0 | .my1 => true
  | .ax0 | .ax1 | .ay0 | .ay1 | .af | .ar | .sr0 | .sr1 | .mx0 | .mx1 | .mf | .mr0 | .mr1 | .mr2 | .mstat => false

/-- The MSTAT bits the source names (R29, R30). -/
def mstatBits : List Nat := [0, 2, 4]

/-- The operations R81 admits; a MAC word's condition must be 1111 (R157). -/
def Instr.wellFormed : Instr → Bool
  | .divs yop _ => yop.admitted
  | .divq _ => true
  | .mul _ _ yop _ cond => yop.admitted && cond == Cond.always
  | .macadd _ _ yop _ cond => yop.admitted && cond == Cond.always
  | .macsub _ _ yop _ cond => yop.admitted && cond == Cond.always
  | .mrclr cond => cond == Cond.always
  | .busRead r => r.dmdReadable
  | .busReadAstat => true
  | .busWrite r _ => r.dmdWritable
  | .busWriteMr2 _ => true
  | .busWriteAstat _ => true
  | .pmdWrite r _ => r.onPmd
  | .pmdRead r => r.onPmd
  | .setMode bit _ => mstatBits.contains bit
  | .aluop _ _ _ _ => true
  | .abs => false

end Sys2Proof
end

