-- ==== Sys2Proof/Decode.lean ====
section
/-! DEFINITION. The 24-bit words of the general-knowledge appendix, 30_encoding.md rule R89 (PRESUMED,
notes/assumptions/7.md): the decoder, total on any word and rejecting by name, and the encoder beside it. Six rows of
spec/opcode_table.json have a pattern; the other ten have none in any source (R80), so no word decodes to them and
they have no encoding (notes/assumptions/8.md). R89 forbids a model to decode words without a vendor document: no
meaning and no step decodes one, and only a load from outside the machine reads a word (notes/assumptions/7.md). -/

namespace Sys2Proof

/-- Why a word is no operation of this model. Raised by the decoder; a place loaded from such a word is refused by
`step` under that name; safe. -/
inductive Rejection where
  /-- A MAC rounding form, function codes 1 to 3 (R89), left out by R157. -/
  | macRounding
  /-- Another function code of the ALU/MAC pattern, of which R89 gives no meaning. -/
  | functionNotListed
  /-- A word of none of the patterns of R89. -/
  | unknownWord
  deriving DecidableEq, Repr

/-- What the decoder answers. -/
inductive Decoded where
  | instr (i : Instr)
  | rejected (why : Rejection)
  deriving DecidableEq, Repr

/-- The three xop bits of the ALU, DIVS and DIVQ (R89). -/
def decodeAluXop (x : BitVec 3) : AluXop :=
  match x.toNat with
  | 0 => .ax0
  | 1 => .ax1
  | 2 => .ar
  | 3 => .mr0
  | 4 => .mr1
  | 5 => .mr2
  | 6 => .sr0
  | _ => .sr1

/-- The three xop bits of the MAC (R89). -/
def decodeMacXop (x : BitVec 3) : MacXop :=
  match x.toNat with
  | 0 => .mx0
  | 1 => .mx1
  | 2 => .ar
  | 3 => .mr0
  | 4 => .mr1
  | 5 => .mr2
  | 6 => .sr0
  | _ => .sr1

/-- The two yop bits of DIVS (R89). -/
def decodeDivsYop (y : BitVec 2) : DivsYop :=
  match y.toNat with
  | 0 => .ay0
  | 1 => .ay1
  | 2 => .af
  | _ => .zero

/-- The two yop bits of the MAC (R89). -/
def decodeMacYop (y : BitVec 2) : MacYop :=
  match y.toNat with
  | 0 => .my0
  | 1 => .my1
  | 2 => .mf
  | _ => .zero

/-- The destination bit z of the MAC (R89). -/
def decodeMacDest (z : BitVec 1) : MacDest := if z = 0#1 then .mr else .mf

/-- The low two bits of the function code of a MAC function (R89). -/
def decodeFmt (f : BitVec 2) : Fmt :=
  match f.toNat with
  | 0 => .ss
  | 1 => .su
  | 2 => .us
  | _ => .uu

/-- A word of the ALU/MAC pattern (R89), from its fields: z, the upper three and the lower two bits of the function
code AMF, yop, xop and condition. X×Y (SS) into MR with yop code 3 is MRCLR, its xop ignored. -/
def decodeMac (z : BitVec 1) (func : BitVec 3) (fmt y : BitVec 2) (x : BitVec 3) (c : Cond) : Decoded :=
  match func.toNat with
  | 0 => .rejected (if fmt = 0#2 then .functionNotListed else .macRounding)
  | 1 =>
    if z = 0#1 ∧ fmt = 0#2 ∧ y = 3#2 then .instr (.mrclr c)
    else .instr (.mul (decodeMacDest z) (decodeMacXop x) (decodeMacYop y) (decodeFmt fmt) c)
  | 2 => .instr (.macadd (decodeMacDest z) (decodeMacXop x) (decodeMacYop y) (decodeFmt fmt) c)
  | 3 => .instr (.macsub (decodeMacDest z) (decodeMacXop x) (decodeMacYop y) (decodeFmt fmt) c)
  | _ => .rejected .functionNotListed

/-- The decoder (R89): DIVS is 0110 0000 000y yxxx 0000 0000, DIVQ is 0111 0001 0000 0xxx 0000 0000, and an ALU or MAC
word is 0010 0zaa aaay yxxx 0000 cccc. -/
def decode (w : Code) : Decoded :=
  if w.extractLsb' 13 11 = 0b01100000000#11 ∧ w.extractLsb' 0 8 = 0#8 then
    .instr (.divs (decodeDivsYop (w.extractLsb' 11 2)) (decodeAluXop (w.extractLsb' 8 3)))
  else if w.extractLsb' 11 13 = 0b0111000100000#13 ∧ w.extractLsb' 0 8 = 0#8 then
    .instr (.divq (decodeAluXop (w.extractLsb' 8 3)))
  else if w.extractLsb' 19 5 = 0b00100#5 ∧ w.extractLsb' 4 4 = 0#4 then
    decodeMac (w.extractLsb' 18 1) (w.extractLsb' 15 3) (w.extractLsb' 13 2) (w.extractLsb' 11 2)
      (w.extractLsb' 8 3) (w.extractLsb' 0 4)
  else .rejected .unknownWord

/-- The xop code of the ALU, DIVS and DIVQ (R89). -/
def encodeAluXop : AluXop → BitVec 3
  | .ax0 => 0b000#3
  | .ax1 => 0b001#3
  | .ar => 0b010#3
  | .mr0 => 0b011#3
  | .mr1 => 0b100#3
  | .mr2 => 0b101#3
  | .sr0 => 0b110#3
  | .sr1 => 0b111#3

/-- The xop code of the MAC (R89). -/
def encodeMacXop : MacXop → BitVec 3
  | .mx0 => 0b000#3
  | .mx1 => 0b001#3
  | .ar => 0b010#3
  | .mr0 => 0b011#3
  | .mr1 => 0b100#3
  | .mr2 => 0b101#3
  | .sr0 => 0b110#3
  | .sr1 => 0b111#3

/-- The yop code of DIVS (R89). -/
def encodeDivsYop : DivsYop → BitVec 2
  | .ay0 => 0b00#2
  | .ay1 => 0b01#2
  | .af => 0b10#2
  | .zero => 0b11#2

/-- The yop code of the MAC (R89). -/
def encodeMacYop : MacYop → BitVec 2
  | .my0 => 0b00#2
  | .my1 => 0b01#2
  | .mf => 0b10#2
  | .zero => 0b11#2

/-- The destination bit z of the MAC (R89). -/
def encodeMacDest : MacDest → BitVec 1
  | .mr => 0#1
  | .mf => 1#1

/-- The low two bits of a MAC function code (R89). -/
def encodeFmt : Fmt → BitVec 2
  | .ss => 0b00#2
  | .su => 0b01#2
  | .us => 0b10#2
  | .uu => 0b11#2

/-- A word of the MAC pattern from its fields (R89). -/
def encodeMac (func : BitVec 3) (dest : MacDest) (xop : MacXop) (yop : MacYop) (fmt : Fmt) (c : Cond) : Code :=
  (0b00100#5 ++ encodeMacDest dest ++ func ++ encodeFmt fmt ++ encodeMacYop yop ++ encodeMacXop xop ++ 0#4 ++ c :
    BitVec (5 + 1 + 3 + 2 + 2 + 3 + 4 + 4))

/-- The encoder (R89), for the six operations that have a pattern; MRCLR is written with xop code 0. -/
def encode : Instr → Option Code
  | .divs yop xop =>
    some (0b01100000000#11 ++ encodeDivsYop yop ++ encodeAluXop xop ++ 0#8 : BitVec (11 + 2 + 3 + 8))
  | .divq xop => some (0b0111000100000#13 ++ encodeAluXop xop ++ 0#8 : BitVec (13 + 3 + 8))
  | .mul dest xop yop fmt c => some (encodeMac 1#3 dest xop yop fmt c)
  | .macadd dest xop yop fmt c => some (encodeMac 2#3 dest xop yop fmt c)
  | .macsub dest xop yop fmt c => some (encodeMac 3#3 dest xop yop fmt c)
  | .mrclr c => some (encodeMac 1#3 .mr .mx0 .zero .ss c)
  | .busRead _ => none
  | .busReadAstat => none
  | .busWrite _ _ => none
  | .busWriteMr2 _ => none
  | .busWriteAstat _ => none
  | .pmdWrite _ _ => none
  | .pmdRead _ => none
  | .setMode _ _ => none
  | .aluop _ _ _ _ => none
  | .abs => none

/-- The rows of the opcode table that have a pattern of bits (R89). -/
def Instr.hasPattern : Instr → Bool
  | .divs _ _ | .divq _ | .mul _ _ _ _ _ | .macadd _ _ _ _ _ | .macsub _ _ _ _ _ | .mrclr _ => true
  | .busRead _ | .busReadAstat | .busWrite _ _ | .busWriteMr2 _ | .busWriteAstat _ | .pmdWrite _ _ | .pmdRead _
  | .setMode _ _ | .aluop _ _ _ _ | .abs => false

/-- The word whose low `nbits` bits are those of `w` and whose other bits are 0. Every word of R89 is one 24-bit
word, so the table's bit 0 is the word's bit 0 and there is no byte order to apply (R61). No word of R89 is longer
than 24 bits: a longer one stands as word 0, which is of no pattern and is rejected. -/
def tableWord (nbits w : Nat) : Code := if nbits ≤ 24 then BitVec.ofNat 24 (w % 2 ^ nbits) else 0#24

/-- What the decoder reads from a row's word, as the opcode table numbers its bits; none where it rejects the
word. -/
def decodeTableWord (nbits w : Nat) : Option Instr :=
  match decode (tableWord nbits w) with
  | .instr i => some i
  | .rejected _ => none

end Sys2Proof
end

