-- ==== Sys2Proof/Machine/State.lean ====
section
/-! DEFINITION. The state of the machine (10_state.md), the reasons a step can stop, and the state after reset.
Which copy of a banked register an operation uses is decided in Machine/Ops.lean (R33, R34). -/

namespace Sys2Proof.Machine

/-- One copy of the ALU registers (R20, R34). -/
structure AluRegs where
  AX0 : Word
  AX1 : Word
  AY0 : Word
  AY1 : Word
  AF  : Word
  AR  : Word
  deriving DecidableEq, Repr

/-- One copy of the MAC registers (R22 to R24, R32); MR0, MR1 and MR2 are sections of MR. -/
structure MacRegs where
  MX0 : Word
  MX1 : Word
  MY0 : Word
  MY1 : Word
  MF  : Word
  MR  : Acc
  deriving DecidableEq, Repr

/-- The six ALU flags of ASTAT (R26) and, beside them, MV (R27). -/
structure Astat where
  AZ : Bool
  AN : Bool
  AV : Bool
  AC : Bool
  AS : Bool
  AQ : Bool
  MV : Bool
  deriving DecidableEq, Repr

/-- The three named bits of MSTAT (R29, R30). -/
structure Mstat where
  /-- `MSTAT.0`: the secondary bank is selected. -/
  bank : Bool
  /-- `MSTAT.2`: the overflow latch mode is enabled. -/
  latch : Bool
  /-- `MSTAT.4`: the MAC is in integer mode. -/
  integer : Bool
  deriving DecidableEq, Repr

/-- One place of the program: an operation (R38), or the mark that a load left for a word that is no operation
(notes/assumptions/1.md). The machine holds no word (R5, R89). -/
inductive Slot where
  | operation (i : Instr)
  | rejected (why : Rejection)
  deriving DecidableEq, Repr

/-- Everything the spec gives the machine; `draws` is the model's own. -/
structure State where
  aluPrimary   : AluRegs
  /-- The second copy of the ALU registers, in use only if ALU_REGS_BANKED (R34). -/
  aluSecondary : AluRegs
  macPrimary   : MacRegs
  macSecondary : MacRegs
  SR0 : Word
  SR1 : Word
  astat : Astat
  mstat : Mstat
  /-- The index of the next operation (R38). -/
  pc : Nat
  /-- The list `pc` indexes (R38); no operation changes it (R69). -/
  program : List Slot
  /-- The words bus reads have handed out, oldest first (R60, R217). -/
  outputs : List Word
  /-- How many free values have been taken; the next one is Config's at this number. -/
  draws : Nat
  deriving DecidableEq, Repr

/-- Why a step stops with a fault. No source names an exception (R190). -/
inductive Fault where
  /-- Raised by `step` when `pc` is not below the program's length, the end of a run (R38, R217); safe. -/
  | endOfRun
  deriving DecidableEq, Repr

/-- Why a step gives an operation no meaning (R199); all are safe. -/
inductive Refusal where
  /-- Raised by `exec` for an operation that has no meaning yet. -/
  | notModelled (mnemonic : String)
  /-- Raised by `step` for a place loaded from a word that is no operation (R86, R157). -/
  | rejectedWord (why : Rejection)
  /-- Raised by DIVS for a yop other than AY1 or AF, R83's "DIVS yop". -/
  | divsYop
  /-- Raised by MUL, MACADD, MACSUB for yop code 3, outside YOPS_MAC (R82, R86). -/
  | macYop
  /-- Raised by MUL into MF with yop code 3, R154's "clear of MF not in source". -/
  | clearOfMf
  /-- Raised by a MAC operation whose condition is not 1111 (R157). -/
  | conditionalForm
  /-- Raised by a bus access outside the table of R171, its "no such bus path in source". -/
  | noBusPath
  /-- Raised by SetMode for a bit other than 0, 2, 4, R30's "MSTAT bit not in source". -/
  | mstatBit
  /-- Raised by ABS, R105's "ABS not in source". -/
  | absNotInSource
  deriving DecidableEq, Repr

/-- The ALU registers at reset: DESIGN CHOICE, the spec gives none (R39; notes/assumptions/3.md). -/
def AluRegs.reset : AluRegs := ⟨0, 0, 0, 0, 0, 0⟩

/-- The MAC registers at reset: DESIGN CHOICE, the spec gives none (R39; notes/assumptions/3.md). -/
def MacRegs.reset : MacRegs := ⟨0, 0, 0, 0, 0, 0⟩

/-- The flags at reset: PRESUMED, the family's (93_implementation_defined.md K10; notes/assumptions/4.md). -/
def Astat.reset : Astat := ⟨false, false, false, false, false, false, false⟩

/-- The mode bits at reset: PRESUMED, the family's (93_implementation_defined.md K10; notes/assumptions/4.md). -/
def Mstat.reset : Mstat := ⟨false, false, false⟩

/-- The machine at launch: pc 0 (R39), and every other field at the value the log names (notes/assumptions/3.md to
5.md). No program is loaded (notes/assumptions/1.md). -/
def State.reset : State where
  aluPrimary := AluRegs.reset
  aluSecondary := AluRegs.reset
  macPrimary := MacRegs.reset
  macSecondary := MacRegs.reset
  SR0 := 0
  SR1 := 0
  astat := Astat.reset
  mstat := Mstat.reset
  pc := 0
  program := []
  outputs := []
  draws := 0

end Sys2Proof.Machine
end

