-- ==== Sys2Proof/Machine/Flags.lean ====
section
/-! DEFINITION. The flag computations: AZ, AN, AV, AC of an ALU operation and the overflow latch
(40_alu_status_overflow_latch.md rules R101 to R106), MV of a MAC result (42_mac.md rule R148), and the packed form of
ASTAT (10_state.md rule R28, 43 R178, R179). -/

namespace Sys2Proof.Machine

/-- AV after an ALU operation that writes it: the overflow indication itself (R101), or latched (R102). -/
def avAfter (latch av ov : Bool) : Bool := if latch then av || ov else ov

/-- The flags after an ALU operation with outcome o (R104, R106): AZ, AN, AC and AV, each only if o writes it. -/
def aluFlags (latch : Bool) (o : AluOutcome) (a : Astat) : Astat :=
  { a with
    AZ := if o.writes.AZ then o.result == 0#16 else a.AZ
    AN := if o.writes.AN then o.result.msb else a.AN
    AC := if o.writes.AC then o.carry else a.AC
    AV := if o.writes.AV then avAfter latch a.AV o.ov else a.AV }

/-- MVof (R148): 0 exactly when bits 39 to 31 of the result are all 0 or all 1. -/
def mvOf (res : Acc) : Bool :=
  let top := res.extractLsb' 31 9
  !(top == 0b000000000#9 || top == 0b111111111#9)

/-- One flag by name. -/
def Astat.get (a : Astat) : AstatFlag → Bool
  | .AZ => a.AZ
  | .AN => a.AN
  | .AV => a.AV
  | .AC => a.AC
  | .AS => a.AS
  | .AQ => a.AQ
  | .MV => a.MV

/-- The flag that stands in bit i of an ASTAT word, if one does (R28). -/
def flagAt (layout : AstatLayout) (i : Fin 16) : Option AstatFlag :=
  AstatFlag.all.find? fun f => layout.position f == i

/-- The word a read of ASTAT puts on the bus (R178): each flag at its position, every other bit that of `free`. -/
def packAstat (layout : AstatLayout) (a : Astat) (free : Word) : Word :=
  BitVec.ofFnLE fun i : Fin 16 =>
    match flagAt layout i with
    | some f => a.get f
    | none => free.getLsbD i

/-- The flags a write of ASTAT takes from the bus (R179): each the bit at its position, the other bits ignored. -/
def unpackAstat (layout : AstatLayout) (v : Word) : Astat where
  AZ := v.getLsbD (layout.position .AZ)
  AN := v.getLsbD (layout.position .AN)
  AV := v.getLsbD (layout.position .AV)
  AC := v.getLsbD (layout.position .AC)
  AS := v.getLsbD (layout.position .AS)
  AQ := v.getLsbD (layout.position .AQ)
  MV := v.getLsbD (layout.position .MV)

end Sys2Proof.Machine
end

