-- ==== Sys2Proof/Machine/Ops.lean ====
section
/-! DEFINITION. The named operations on the registers, the outputs and the program: bank selection (10_state.md
rules R32 to R34), the sections of MR (R24), the end of every operation (R38), what a fetch finds (R38).
There is no memory (R60) and no exception (R190), so there is no memory operation and no exception entry. -/

namespace Sys2Proof.Machine

/-- The copy of the MAC registers that `MSTAT.0` selects (R33). -/
def State.mac (s : State) : MacRegs :=
  if s.mstat.bank then s.macSecondary else s.macPrimary

/-- Write the copy of the MAC registers that `MSTAT.0` selects; the other keeps its value (R33). -/
def State.setMac (s : State) (m : MacRegs) : State :=
  if s.mstat.bank then { s with macSecondary := m } else { s with macPrimary := m }

/-- The copy of the ALU registers in use, for a value of ALU_REGS_BANKED (R34). -/
def State.aluIn (banked : Bool) (s : State) : AluRegs :=
  if s.mstat.bank && banked then s.aluSecondary else s.aluPrimary

/-- Write the copy of the ALU registers in use, for a value of ALU_REGS_BANKED (R34). -/
def State.setAluIn (banked : Bool) (s : State) (a : AluRegs) : State :=
  if s.mstat.bank && banked then { s with aluSecondary := a } else { s with aluPrimary := a }

/-- The ALU registers in use (R34). -/
def State.alu (s : State) : AluRegs := s.aluIn Config.aluRegsBanked

/-- Write the ALU registers in use (R34). -/
def State.setAlu (s : State) (a : AluRegs) : State := s.setAluIn Config.aluRegsBanked a

/-- Write the flags. -/
def State.setAstat (s : State) (a : Astat) : State := { s with astat := a }

/-- Write the mode bits. -/
def State.setMstat (s : State) (m : Mstat) : State := { s with mstat := m }

/-- `pc <- pc + 1`, the end of every operation (R38). -/
def State.advance (s : State) : State := { s with pc := s.pc + 1 }

/-- Hand out a word, the output of a bus read (R60, R173). -/
def State.emit (s : State) (w : Word) : State := { s with outputs := s.outputs ++ [w] }

/-- Count one free value as taken (`draw`, R8). -/
def State.takeDraw (s : State) : State := { s with draws := s.draws + 1 }

/-- MR0 = MR[15:0] (R24). -/
def mr0 (m : Acc) : Word := m.extractLsb' 0 16

/-- MR1 = MR[31:16] (R24). -/
def mr1 (m : Acc) : Word := m.extractLsb' 16 16

/-- MR2 = MR[39:32] (R24). -/
def mr2 (m : Acc) : BitVec 8 := m.extractLsb' 32 8

/-- MR with MR0 replaced. -/
def setMr0 (m : Acc) (v : Word) : Acc := (mr2 m ++ mr1 m ++ v : BitVec (8 + 16 + 16))

/-- MR with MR1 replaced. -/
def setMr1 (m : Acc) (v : Word) : Acc := (mr2 m ++ v ++ mr0 m : BitVec (8 + 16 + 16))

/-- MR with MR2 replaced. -/
def setMr2 (m : Acc) (v : BitVec 8) : Acc := (v ++ mr1 m ++ mr0 m : BitVec (8 + 16 + 16))

/-- `v[14:0] : b`, a left shift by one with b entering at bit 0 (R123, R126). -/
def shiftIn (v : Word) (b : Bool) : Word := (v.extractLsb' 0 15 ++ BitVec.ofBool b : BitVec (15 + 1))

/-- The place that a load makes of a word of the appendix (notes/assumptions/7.md): the operation it stands for, or
the name it is rejected by. Only a load, from outside the machine, reads a word; `step` never does (R5, R89). -/
def Slot.ofWord (w : Code) : Slot :=
  match decode w with
  | .instr i => .operation i
  | .rejected why => .rejected why

/-- The place `pc` indexes; none when the run has ended (R38). -/
def State.fetch (s : State) : Option Slot := s.program[s.pc]?

/-- A program with place n set to c; places that were missing below it are filled with c. -/
def placeAt (c : Slot) : Nat → List Slot → List Slot
  | 0, [] => [c]
  | 0, _ :: rest => c :: rest
  | n + 1, [] => c :: placeAt c n []
  | n + 1, x :: rest => x :: placeAt c n rest

end Sys2Proof.Machine
end

