-- ==== Sys2Proof/Machine/Operands.lean ====
section
/-! DEFINITION. The operand forms: what a register drives on a bus (43_register_access.md rule R172), the X and Y
operands (30_encoding.md rule R82, 40 R106), and the bus paths of R171. A path the table does not have is none. -/

namespace Sys2Proof.Machine

/-- What MR2 drives on the R bus or the DMD bus: its eight bits sign-extended (R172). -/
def xbusMr2 (m : Acc) : Word := (mr2 m).signExtend 16

/-- `xbus(xop)` for xop in XOPS (R82, R172). -/
def readAluXop (x : AluXop) (s : State) : Word :=
  match x with
  | .ax0 => s.alu.AX0
  | .ax1 => s.alu.AX1
  | .ar => s.alu.AR
  | .mr0 => mr0 s.mac.MR
  | .mr1 => mr1 s.mac.MR
  | .mr2 => xbusMr2 s.mac.MR
  | .sr0 => s.SR0
  | .sr1 => s.SR1

/-- `xbus(xop)` for xop in XOPS_MAC (R82, R142, R172). -/
def readMacXop (x : MacXop) (s : State) : Word :=
  match x with
  | .mx0 => s.mac.MX0
  | .mx1 => s.mac.MX1
  | .ar => s.alu.AR
  | .mr0 => mr0 s.mac.MR
  | .mr1 => mr1 s.mac.MR
  | .mr2 => xbusMr2 s.mac.MR
  | .sr0 => s.SR0
  | .sr1 => s.SR1

/-- The yop of DIVS; none for the yops R83 refuses. -/
def readDivsYop (y : DivsYop) (s : State) : Option Word :=
  match y with
  | .ay1 => some s.alu.AY1
  | .af => some s.alu.AF
  | .ay0 => none
  | .zero => none

/-- The yop of the abstract ALU operation (R106). -/
def readAluYop (y : AluYop) (s : State) : Word :=
  match y with
  | .ay0 => s.alu.AY0
  | .ay1 => s.alu.AY1
  | .af => s.alu.AF

/-- The yop of a MAC operation (R82, R142); none for code 3, which is outside YOPS_MAC. -/
def readMacYop (y : MacYop) (s : State) : Option Word :=
  match y with
  | .my0 => some s.mac.MY0
  | .my1 => some s.mac.MY1
  | .mf => some s.mac.MF
  | .zero => none

/-- Write the destination of the abstract ALU operation (R106). -/
def writeAluDest (d : AluDest) (v : Word) (s : State) : State :=
  match d with
  | .ar => s.setAlu { s.alu with AR := v }
  | .af => s.setAlu { s.alu with AF := v }

/-- What a register drives on the DMD bus (R171, R172); none where it has no DMD read path. -/
def dmdRead (r : Reg) (s : State) : Option Word :=
  match r with
  | .ax0 => some s.alu.AX0
  | .ax1 => some s.alu.AX1
  | .ay0 => some s.alu.AY0
  | .ay1 => some s.alu.AY1
  | .ar => some s.alu.AR
  | .mx0 => some s.mac.MX0
  | .mx1 => some s.mac.MX1
  | .my0 => some s.mac.MY0
  | .my1 => some s.mac.MY1
  | .mr0 => some (mr0 s.mac.MR)
  | .mr1 => some (mr1 s.mac.MR)
  | .mr2 => some (xbusMr2 s.mac.MR)
  | .af | .sr0 | .sr1 | .mf | .mstat => none

/-- MR after a bus write of MR1, for a value of MR1_LOAD_SIGN_EXTENDS (R174, R177). -/
def loadMr1 (signExtends : Bool) (m : Acc) (v : Word) : Acc :=
  if signExtends then setMr2 (setMr1 m v) (if v.msb then 0xFF#8 else 0x00#8) else setMr1 m v

/-- MR after a bus write of MR2, which takes the low eight bits of the bus (R175). -/
def loadMr2 (m : Acc) (v : Word) : Acc := setMr2 m (v.extractLsb' 0 8)

/-- Write MR in the selected bank. -/
def State.setMR (s : State) (m : Acc) : State := s.setMac { s.mac with MR := m }

/-- The register written from the DMD bus (R171, R174, R175, R177); none where it has no DMD write path. -/
def dmdWrite (r : Reg) (v : Word) (s : State) : Option State :=
  match r with
  | .ax0 => some (s.setAlu { s.alu with AX0 := v })
  | .ax1 => some (s.setAlu { s.alu with AX1 := v })
  | .ay0 => some (s.setAlu { s.alu with AY0 := v })
  | .ay1 => some (s.setAlu { s.alu with AY1 := v })
  | .ar => some (s.setAlu { s.alu with AR := v })
  | .mx0 => some (s.setMac { s.mac with MX0 := v })
  | .mx1 => some (s.setMac { s.mac with MX1 := v })
  | .my0 => some (s.setMac { s.mac with MY0 := v })
  | .my1 => some (s.setMac { s.mac with MY1 := v })
  | .mr0 => some (s.setMR (setMr0 s.mac.MR v))
  | .mr1 => some (s.setMR (loadMr1 Config.mr1LoadSignExtends s.mac.MR v))
  | .mr2 => some (s.setMR (loadMr2 s.mac.MR v))
  | .af | .sr0 | .sr1 | .mf | .mstat => none

/-- What reaches the PMD bus through the exchange unit (R182); none for a register other than MY0 and MY1. -/
def pmdRead (r : Reg) (s : State) : Option Word :=
  match r with
  | .my0 => some s.mac.MY0
  | .my1 => some s.mac.MY1
  | .ax0 | .ax1 | .ay0 | .ay1 | .af | .ar | .sr0 | .sr1 | .mx0 | .mx1 | .mf | .mr0 | .mr1 | .mr2 | .mstat => none

/-- The register written from the PMD bus (R181); none for a register other than MY0 and MY1. -/
def pmdWrite (r : Reg) (v : Word) (s : State) : Option State :=
  match r with
  | .my0 => some (s.setMac { s.mac with MY0 := v })
  | .my1 => some (s.setMac { s.mac with MY1 := v })
  | .ax0 | .ax1 | .ay0 | .ay1 | .af | .ar | .sr0 | .sr1 | .mx0 | .mx1 | .mf | .mr0 | .mr1 | .mr2 | .mstat => none

/-- MSTAT with one of its three named bits written (R180); none for any other bit (R30). -/
def writeMstatBit (bit : Nat) (value : Bool) (m : Mstat) : Option Mstat :=
  match bit with
  | 0 => some { m with bank := value }
  | 2 => some { m with latch := value }
  | 4 => some { m with integer := value }
  | _ => none

end Sys2Proof.Machine
end

