-- ==== Sys2Proof/Machine/Alu.lean ====
section
/-! DEFINITION. The abstract ALU operation and ABS (40_alu_status_overflow_latch.md rules R100 to R106). -/

namespace Sys2Proof.Machine

/-- The state after an ALU operation whose function answered o (R106). -/
def writeAlu (o : AluOutcome) (dest : AluDest) (s : State) : State :=
  (writeAluDest dest o.result s).setAstat (aluFlags s.mstat.latch o s.astat)

/-- The abstract ALU operation for any function f (R106); the carry in is AC. -/
def aluWith (f : AluFunction) (dest : AluDest) (xop : AluXop) (yop : AluYop) (s : State) : State :=
  (writeAlu (f (readAluXop xop s) (readAluYop yop s) s.astat.AC) dest s).advance

/-- `ALUOP f, dest, xop, yop` (R106), with entry f of the table. -/
def execAluop (f : Nat) (dest : AluDest) (xop : AluXop) (yop : AluYop) (s : State) :
    Host.Outcome State Fault Refusal :=
  .next (aluWith (Config.aluFunction f) dest xop yop s)

/-- `ABS` is not described in any source and is refused (R105). -/
def execAbs (_ : State) : Host.Outcome State Fault Refusal := .refused .absNotInSource

end Sys2Proof.Machine
end

