-- ==== Sys2Proof/Machine/Bus.lean ====
section
/-! DEFINITION. Register access over the DMD and PMD buses and the writing of ASTAT and MSTAT
(43_register_access.md rules R172 to R182). The far end of a bus is outside the machine (R60): a write's value is an
operand, a read's value joins the outputs. -/

namespace Sys2Proof.Machine

/-- The end of a read: hand out the word (R173, R182), or refuse a path R171 does not have. -/
def finishRead (w : Option Word) (s : State) : Host.Outcome State Fault Refusal :=
  match w with
  | none => .refused .noBusPath
  | some w => .next (s.emit w).advance

/-- The end of a write: advance (R174, R181), or refuse a path R171 does not have. -/
def finishWrite (t : Option State) : Host.Outcome State Fault Refusal :=
  match t with
  | none => .refused .noBusPath
  | some t => .next t.advance

/-- `BusRead r`, r other than ASTAT (R173). -/
def execBusRead (r : Reg) (s : State) : Host.Outcome State Fault Refusal := finishRead (dmdRead r s) s

/-- `BusRead ASTAT` (R178); the bits in which no flag stands are free. -/
def execBusReadAstat (s : State) : Host.Outcome State Fault Refusal :=
  .next ((s.emit (packAstat Config.astatLayout s.astat (Config.freeWord s.draws))).takeDraw).advance

/-- `BusWrite r, v` (R174, R177; R175 for MR2). -/
def execBusWrite (r : Reg) (v : Word) (s : State) : Host.Outcome State Fault Refusal := finishWrite (dmdWrite r v s)

/-- `BusWrite MR2, v` (R175). -/
def execBusWriteMr2 (v : Word) (s : State) : Host.Outcome State Fault Refusal :=
  .next (s.setMR (loadMr2 s.mac.MR v)).advance

/-- `BusWrite ASTAT, v` (R179), in both latch modes (R103). -/
def execBusWriteAstat (v : Word) (s : State) : Host.Outcome State Fault Refusal :=
  .next (s.setAstat (unpackAstat Config.astatLayout v)).advance

/-- `PmdWrite r, v` (R181). -/
def execPmdWrite (r : Reg) (v : Word) (s : State) : Host.Outcome State Fault Refusal := finishWrite (pmdWrite r v s)

/-- `PmdRead r` (R182). -/
def execPmdRead (r : Reg) (s : State) : Host.Outcome State Fault Refusal := finishRead (pmdRead r s) s

/-- `SetMode bit, value` (R180); the new mode governs the next operation (R33). -/
def execSetMode (bit : Nat) (value : Bool) (s : State) : Host.Outcome State Fault Refusal :=
  match writeMstatBit bit value s.mstat with
  | none => .refused .mstatBit
  | some m => .next (s.setMstat m).advance

end Sys2Proof.Machine
end

