-- ==== Sys2Proof/Machine/Divide.lean ====
section
/-! DEFINITION. The division primitives DIVS and DIVQ (41_alu_divide.md rules R122 to R127). The lines of R123 and
R126 that stand for the lost figures 2.2 and 2.3 are PRESUMED (93_implementation_defined.md K1, K2;
notes/assumptions/11.md); that no flag but AQ is written is PRESUMED (K8; notes/assumptions/12.md). -/

namespace Sys2Proof.Machine

/-- Write AF, AY0 and AQ together, what both primitives write (R108, R123, R126). -/
def writeDivide (af ay0 : Word) (aq : Bool) (s : State) : State :=
  (s.setAlu { s.alu with AF := af, AY0 := ay0 }).setAstat { s.astat with AQ := aq }

/-- `DIVS yop, xop` (R123). -/
def execDivs (yop : DivsYop) (xop : AluXop) (s : State) : Host.Outcome State Fault Refusal :=
  match readDivsYop yop s with
  | none => .refused .divsYop
  | some y =>
    let x := readAluXop xop s
    let q := x.msb ^^ y.msb
    .next (writeDivide (shiftIn y s.alu.AY0.msb) (shiftIn s.alu.AY0 q) q s).advance

/-- The sum or difference that AQ selects (R125, R126), modulo 2^16. -/
def divqAlu (aq : Bool) (a x : Word) : Word := if aq then a + x else a - x

/-- `DIVQ xop` (R126). -/
def execDivq (xop : AluXop) (s : State) : Host.Outcome State Fault Refusal :=
  let x := readAluXop xop s
  let r := divqAlu s.astat.AQ s.alu.AF x
  let q := x.msb ^^ r.msb
  .next (writeDivide (shiftIn r s.alu.AY0.msb) (shiftIn s.alu.AY0 (!q)) q s).advance

end Sys2Proof.Machine
end

