-- ==== Sys2Proof/Machine/Mac.lean ====
section
/-! DEFINITION. The multiplier-accumulator: the shared core of 42_mac.md rules R142 to R150 and the four functions
of Table 3.1 (R151 to R154). -/

namespace Sys2Proof.Machine

/-- What the 40-bit adder/subtractor does with the product (R147). -/
inductive MacFunc where
  | mul | add | sub
  deriving DecidableEq, Repr

/-- The integer an operand denotes, signed or unsigned (R142). -/
def operandValue (signed : Bool) (w : Word) : Int := if signed then w.toInt else (w.toNat : Int)

/-- Whether a format reads X as signed (R84). -/
def xSigned : Fmt → Bool
  | .ss => true
  | .su => true
  | .us => false
  | .uu => false

/-- Whether a format reads Y as signed (R84). -/
def ySigned : Fmt → Bool
  | .ss => true
  | .su => false
  | .us => true
  | .uu => false

/-- The exact product p (R143). -/
def macProduct (fmt : Fmt) (x y : Word) : Int :=
  operandValue (xSigned fmt) x * operandValue (ySigned fmt) y

/-- The product as the adder reads it (R146): p, but for an unsigned product under MAC_UU_EXTENSION = sign, which is
read as a signed 32-bit number. -/
def extendProduct (ext : UuExtension) (fmt : Fmt) (p : Int) : Int :=
  match fmt, ext with
  | .uu, .sign => (BitVec.ofInt 32 p).toInt
  | .uu, .zero => p
  | .ss, _ => p
  | .su, _ => p
  | .us, _ => p

/-- k, the fractional shift (R144, R145): 1 in integer mode, 2 in fractional mode. -/
def macScale (integer : Bool) : Int := if integer then 1 else 2

/-- The 40-bit result of the adder/subtractor (R146, R147). -/
def macResult (ext : UuExtension) (func : MacFunc) (integer : Bool) (fmt : Fmt) (acc : Acc) (x y : Word) : Acc :=
  let ps := BitVec.ofInt 40 (macScale integer * extendProduct ext fmt (macProduct fmt x y))
  match func with
  | .mul => ps
  | .add => acc + ps
  | .sub => acc - ps

/-- Destination MR (R148, R149): all of MR and MV are written, MF is not. -/
def writeResultMr (res : Acc) (s : State) : State :=
  (s.setMR res).setAstat { s.astat with MV := mvOf res }

/-- Destination MF (R150): MF takes bits 31 to 16; MV takes a free value; MR is not written (PRESUMED,
93_implementation_defined.md K13; notes/assumptions/15.md). -/
def writeResultMf (res : Acc) (s : State) : State :=
  ((s.setMac { s.mac with MF := mr1 res }).setAstat
    { s.astat with MV := Config.freeBit s.draws }).takeDraw

/-- Write the result to its destination (R149, R150). -/
def writeResult (dest : MacDest) (res : Acc) (s : State) : State :=
  match dest with
  | .mr => writeResultMr res s
  | .mf => writeResultMf res s

/-- MacCore (R142 to R150), for the admitted operands; `stop` is the refusal for yop code 3. -/
def macCore (func : MacFunc) (stop : Refusal) (dest : MacDest) (xop : MacXop) (yop : MacYop) (fmt : Fmt)
    (cond : Cond) (s : State) : Host.Outcome State Fault Refusal :=
  if cond = Cond.always then
    match readMacYop yop s with
    | none => .refused stop
    | some y =>
      let res := macResult Config.macUuExtension func s.mstat.integer fmt s.mac.MR (readMacXop xop s) y
      .next (writeResult dest res s).advance
  else .refused .conditionalForm

/-- The refusal of X×Y with yop code 3: into MF it is the clear of MF of R154, into MR a yop outside R82. -/
def mulZeroStop : MacDest → Refusal
  | .mr => .macYop
  | .mf => .clearOfMf

/-- `MUL dest, xop, yop, fmt` (R151). -/
def execMul (dest : MacDest) (xop : MacXop) (yop : MacYop) (fmt : Fmt) (cond : Cond) (s : State) :
    Host.Outcome State Fault Refusal :=
  macCore .mul (mulZeroStop dest) dest xop yop fmt cond s

/-- `MACADD dest, xop, yop, fmt` (R152). -/
def execMacadd (dest : MacDest) (xop : MacXop) (yop : MacYop) (fmt : Fmt) (cond : Cond) (s : State) :
    Host.Outcome State Fault Refusal :=
  macCore .add .macYop dest xop yop fmt cond s

/-- `MACSUB dest, xop, yop, fmt` (R153). -/
def execMacsub (dest : MacDest) (xop : MacXop) (yop : MacYop) (fmt : Fmt) (cond : Cond) (s : State) :
    Host.Outcome State Fault Refusal :=
  macCore .sub .macYop dest xop yop fmt cond s

/-- `MRCLR` (R154): MR and MV become 0. -/
def execMrclr (cond : Cond) (s : State) : Host.Outcome State Fault Refusal :=
  if cond = Cond.always then .next (writeResultMr 0 s).advance else .refused .conditionalForm

end Sys2Proof.Machine
end

