-- ==== Sys2Proof/Machine/Dispatch.lean ====
section
/-! DEFINITION. One arm for each operation of 30_encoding.md rule R81. -/

namespace Sys2Proof.Machine

def exec (i : Instr) (s : State) : Host.Outcome State Fault Refusal :=
  match i with
  | .divs yop xop => Sys2Proof.Machine.execDivs yop xop s
  | .divq xop => Sys2Proof.Machine.execDivq xop s
  | .mul dest xop yop fmt cond => Sys2Proof.Machine.execMul dest xop yop fmt cond s
  | .macadd dest xop yop fmt cond => Sys2Proof.Machine.execMacadd dest xop yop fmt cond s
  | .macsub dest xop yop fmt cond => Sys2Proof.Machine.execMacsub dest xop yop fmt cond s
  | .mrclr cond => Sys2Proof.Machine.execMrclr cond s
  | .busRead r => Sys2Proof.Machine.execBusRead r s
  | .busReadAstat => Sys2Proof.Machine.execBusReadAstat s
  | .busWrite r v => Sys2Proof.Machine.execBusWrite r v s
  | .busWriteMr2 v => Sys2Proof.Machine.execBusWriteMr2 v s
  | .busWriteAstat v => Sys2Proof.Machine.execBusWriteAstat v s
  | .pmdWrite r v => Sys2Proof.Machine.execPmdWrite r v s
  | .pmdRead r => Sys2Proof.Machine.execPmdRead r s
  | .setMode bit value => Sys2Proof.Machine.execSetMode bit value s
  | .aluop f dest xop yop => Sys2Proof.Machine.execAluop f dest xop yop s
  | .abs => Sys2Proof.Machine.execAbs s

end Sys2Proof.Machine
end

