-- ==== Sys2Proof/Machine/Step.lean ====
section
/-! DEFINITION. One step (10_state.md rule R38): fetch the operation `pc` indexes and execute it. -/

namespace Sys2Proof.Machine

/-- One step. Past the end of the program the run has ended (R38, R217). -/
def step (s : State) : Host.Outcome State Fault Refusal :=
  match s.fetch with
  | none => .fault .endOfRun
  | some (.operation i) => exec i s
  | some (.rejected why) => .refused (.rejectedWord why)

/-- The load of a word of the opcode table into the place that `step` fetches next (notes/assumptions/1.md). -/
def State.withFetchWord (s : State) (nbits w : Nat) : State :=
  { s with program := placeAt (.ofWord (tableWord nbits w)) s.pc s.program }

end Sys2Proof.Machine
end

