-- ==== Sys2Proof/Safety.lean ====
section
/-! DEFINITION. The terms claims are made in: the invariant of a run, what the spec says a register drives, written
with numbers and apart from the meanings, the value the MAC adds, and the copy of the MAC registers that is not
selected. -/

namespace Sys2Proof

/-- The register a DIVS, DIVQ or ALUOP xop names (R82). -/
def AluXop.reg : AluXop → Reg
  | .ax0 => .ax0
  | .ax1 => .ax1
  | .ar => .ar
  | .mr0 => .mr0
  | .mr1 => .mr1
  | .mr2 => .mr2
  | .sr0 => .sr0
  | .sr1 => .sr1

/-- The register a MAC xop names (R82). -/
def MacXop.reg : MacXop → Reg
  | .mx0 => .mx0
  | .mx1 => .mx1
  | .ar => .ar
  | .mr0 => .mr0
  | .mr1 => .mr1
  | .mr2 => .mr2
  | .sr0 => .sr0
  | .sr1 => .sr1

/-- The register a yop of DIVS names (R82); code 3 names none. -/
def DivsYop.reg : DivsYop → Reg
  | .ay0 => .ay0
  | .ay1 => .ay1
  | .af => .af
  | .zero => .mstat

/-- The register a yop of the abstract ALU operation names (R106). -/
def AluYop.reg : AluYop → Reg
  | .ay0 => .ay0
  | .ay1 => .ay1
  | .af => .af

/-- The register a MAC yop names (R82); code 3 names none. -/
def MacYop.reg : MacYop → Reg
  | .my0 => .my0
  | .my1 => .my1
  | .mf => .mf
  | .zero => .mstat

end Sys2Proof

namespace Sys2Proof.Machine

/-- The invariant of a run: pc has not passed the end of the program (R38), and no more words have been handed out,
and no more free values taken, than operations executed (each operation has at most one output, R173, R178, R182). -/
abbrev State.Inv (s : State) : Prop :=
  s.pc ≤ s.program.length ∧ s.outputs.length ≤ s.pc ∧ s.draws ≤ s.pc

/-- What a DMD-readable register drives on the bus (R172), its sections of MR taken by division: MR2 is the 40-bit
signed number divided by 2^32, rounded down. For a register with no path the value is not used. -/
def busValue (r : Reg) (s : State) : Word :=
  match r with
  | .ax0 => s.alu.AX0
  | .ax1 => s.alu.AX1
  | .ay0 => s.alu.AY0
  | .ay1 => s.alu.AY1
  | .af => s.alu.AF
  | .ar => s.alu.AR
  | .sr0 => s.SR0
  | .sr1 => s.SR1
  | .mx0 => s.mac.MX0
  | .mx1 => s.mac.MX1
  | .my0 => s.mac.MY0
  | .my1 => s.mac.MY1
  | .mf => s.mac.MF
  | .mr0 => BitVec.ofNat 16 s.mac.MR.toNat
  | .mr1 => BitVec.ofNat 16 (s.mac.MR.toNat / 2 ^ 16)
  | .mr2 => BitVec.ofInt 16 (s.mac.MR.toInt / 2 ^ 32)
  | .mstat => 0

/-- The product as the rules present it to the 40-bit adder (R142 to R146): the exact product of the numbers the
format says X and Y are, doubled in fractional mode; under MAC_UU_EXTENSION = sign a product of two unsigned numbers
of 2^31 or more counts 2^32 less before it is doubled. -/
def presentedProduct (ext : UuExtension) (integer : Bool) (fmt : Fmt) (x y : Word) : Int :=
  let xv : Int := if fmt = .ss ∨ fmt = .su then x.toInt else x.toNat
  let yv : Int := if fmt = .ss ∨ fmt = .us then y.toInt else y.toNat
  let p := xv * yv
  let q := if fmt = .uu ∧ ext = .sign ∧ 2 ^ 31 ≤ p then p - 2 ^ 32 else p
  if integer then q else 2 * q

/-- A number does not fit 32-bit two's complement, the condition of MV (R148). -/
abbrev Exceeds32 (n : Int) : Prop := n < -2 ^ 31 ∨ 2 ^ 31 ≤ n

/-- The partial remainder of an unsigned division as a signed number, AQ giving the sign the sixteen bits of AF have
no room for. -/
def partialRemainder (s : State) : Int :=
  if s.astat.AQ then (s.alu.AF.toNat : Int) - 2 ^ 16 else s.alu.AF.toNat

/-- The state with copy `secondary` of the MAC registers replaced. -/
def State.withMacCopy (secondary : Bool) (m : MacRegs) (s : State) : State :=
  if secondary then { s with macSecondary := m } else { s with macPrimary := m }

/-- Copy `secondary` of the MAC registers. -/
def State.macCopy (secondary : Bool) (s : State) : MacRegs :=
  if secondary then s.macSecondary else s.macPrimary

/-- The state with copy `secondary` of the ALU registers replaced. -/
def State.withAluCopy (secondary : Bool) (a : AluRegs) (s : State) : State :=
  if secondary then { s with aluSecondary := a } else { s with aluPrimary := a }

/-- Copy `secondary` of the ALU registers. -/
def State.aluCopy (secondary : Bool) (s : State) : AluRegs :=
  if secondary then s.aluSecondary else s.aluPrimary

/-- An outcome with its next state, if it has one, changed by f. -/
def mapNext (f : State → State) : Host.Outcome State Fault Refusal → Host.Outcome State Fault Refusal
  | .next t => .next (f t)
  | .fault r => .fault r
  | .refused r => .refused r

/-- What destination MR receives (R149): all 40 bits, MF and the other registers unchanged, MV set exactly when the
value exceeds 32 bits (R148). The statement of each function below adds the value. -/
def WritesMr (i : Instr) (s : State) (value : State → Prop) : Prop :=
  ∃ t, exec i s = .next t ∧ value t ∧
    (t.astat.MV = true ↔ Exceeds32 t.mac.MR.toInt) ∧
    t = { s.setMac { s.mac with MR := t.mac.MR } with
          astat := { s.astat with MV := t.astat.MV }, pc := s.pc + 1 }

/-- What destination MF receives (R150): bits 31 to 16 of the 40-bit result; MR is kept (PRESUMED,
notes/assumptions/15.md); nothing is said of MV, a free value, and the free-value counter advances. -/
def WritesMf (i : Instr) (s : State) (result : Int) : Prop :=
  ∃ t, exec i s = .next t ∧ (t.mac.MF.toNat : Int) = result / 2 ^ 16 % 2 ^ 16 ∧
    t = { s.setMac { s.mac with MF := t.mac.MF } with
          astat := { s.astat with MV := t.astat.MV }, pc := s.pc + 1, draws := s.draws + 1 }

end Sys2Proof.Machine
end

