-- ==== Sys2Proof/Certificates/Slice0/Obligations.lean ====
section
/-! DEFINITION. The statements for the provers. A next state is written as the state before with the fields named
that the operation writes: an equation for it is the operation's frame as well as its effect, since every other
register (of both banks), flag, mode bit, output and place of the program is then as before. Banks are named by
`s.alu` and `s.mac`, the copies in use (10_state.md rules R33, R34). -/

open Sys2Proof Sys2Proof.Machine

/-! ## Words of the general-knowledge appendix (R89, notes/assumptions/7.md) -/

/-- Words of 95_test_vectors.md section 2.6, each written there from the patterns of R89. The encoding is the model's
choice (PRESUMED, notes/assumptions/7.md). -/
def Obligations.ListedWordsDecodeToTheirOperations : Prop :=
  decode 0x600800#24 = .instr (.divs .ay1 .ax0) ∧
  decode 0x601000#24 = .instr (.divs .af .ax0) ∧
  decode 0x710100#24 = .instr (.divq .ax1) ∧
  decode 0x24800F#24 = .instr (.mul .mf .mx0 .my0 .ss Cond.always) ∧
  decode 0x20E00F#24 = .instr (.mul .mr .mx0 .my0 .uu Cond.always) ∧
  decode 0x20900F#24 = .instr (.mul .mr .mx0 .mf .ss Cond.always) ∧
  decode 0x21090F#24 = .instr (.macadd .mr .mx1 .my1 .ss Cond.always) ∧
  decode 0x21800F#24 = .instr (.macsub .mr .mx0 .my0 .ss Cond.always) ∧
  decode 0x20980F#24 = .instr (.mrclr Cond.always)

/-- Every admitted operation that has a pattern has a word, and the word decodes to it, every operand at every value
(encoding PRESUMED, notes/assumptions/7.md). -/
def Obligations.EncodedOperationsDecodeToThemselves : Prop :=
  ∀ i : Instr, i.wellFormed = true → i.hasPattern = true → ∃ w, encode i = some w ∧ decode w = .instr i

/-- The other direction: a word that decodes to an operation is the word the encoder writes for it; for MRCLR it is
so but for the three xop bits, which are ignored (encoding PRESUMED, notes/assumptions/7.md). -/
def Obligations.DecodedWordsAreTheEncodersWords : Prop :=
  ∀ (w : Code) (i : Instr), decode w = .instr i →
    ((∀ c, i ≠ .mrclr c) → encode i = some w) ∧ (∀ c, i = .mrclr c → encode i = some (w &&& 0xFFF8FF#24))

/-- The rounding forms, function codes 1 to 3 of the ALU/MAC pattern, are rejected by that name, whatever their
operands (R157; encoding PRESUMED, notes/assumptions/7.md). -/
def Obligations.RoundingWordsAreRejected : Prop :=
  ∀ (z : BitVec 1) (amf : BitVec 5) (y : BitVec 2) (x : BitVec 3) (c : BitVec 4),
    amf = 1#5 ∨ amf = 2#5 ∨ amf = 3#5 →
      decode (0b00100#5 ++ z ++ amf ++ y ++ x ++ 0#4 ++ c : BitVec (5 + 1 + 5 + 2 + 3 + 4 + 4)) =
        .rejected .macRounding

/-! ## The step and the run -/

/-- A step executes the operation pc indexes (R38). Everything else said here is the model's choice: that a load makes
of a word the operation it decodes to, or a place that is refused under the name the word is rejected by (DESIGN CHOICE,
notes/assumptions/1.md; the words PRESUMED, notes/assumptions/7.md), and that the end of a run is a fault (DESIGN
CHOICE, notes/assumptions/2.md). -/
def Obligations.StepExecutesTheOperationAtPc : Prop :=
  ∀ s : State,
    (∀ i, s.program[s.pc]? = some (.operation i) → step s = exec i s) ∧
    (∀ w i, s.program[s.pc]? = some (.ofWord w) → decode w = .instr i → step s = exec i s) ∧
    (∀ w why, s.program[s.pc]? = some (.ofWord w) → decode w = .rejected why →
      step s = .refused (.rejectedWord why)) ∧
    (s.program.length ≤ s.pc → step s = .fault .endOfRun)

/-- A word loaded for the next fetch gives the operation the next step executes, from any state, and
the load changes the program at that place only (where the program reaches it). That a program is loaded so is the
model's choice (DESIGN CHOICE, notes/assumptions/1.md); the words are PRESUMED (notes/assumptions/7.md). -/
def Obligations.PlacedWordIsExecutedNext : Prop :=
  ∀ (s : State) (nbits w : Nat) (i : Instr), decodeTableWord nbits w = some i →
    step (s.withFetchWord nbits w) = exec i (s.withFetchWord nbits w) ∧
    ∀ n, n ≠ s.pc → n < s.program.length → (s.withFetchWord nbits w).program[n]? = s.program[n]?

/-- The admitted operations are exactly those that complete, in every state; every other is refused. That a read of
ASTAT and the DMD accesses of AX0, AX1, AY0, AY1 and AR complete is DEDUCED (notes/assumptions/23.md, 26.md), that ALUOP
completes on its operands PRESUMED (notes/assumptions/29.md), that SetMode completes and the refusals of MAC forms, of
bus paths, of MSTAT bits and of ABS DEDUCED (notes/assumptions/9.md, 10.md, 27.md, 28.md, 30.md). -/
def Obligations.AdmittedOperationsAreThoseThatComplete : Prop :=
  ∀ (i : Instr) (s : State),
    (i.wellFormed = true → ∃ t, exec i s = .next t) ∧
    (i.wellFormed = false → ∃ r, exec i s = .refused r)

/-- No operation answers a fault, in any state: the model has no fault but the end of a run, which is `step`'s
(notes/assumptions/2.md). That the fault of R199, a read of a register that nothing has written, does not arise is the
model's choice (DESIGN CHOICE, notes/assumptions/6.md); no rule raises an exception (R190). -/
def Obligations.NoOperationAnswersAFault : Prop :=
  ∀ (i : Instr) (s : State) (f : Fault), exec i s ≠ .fault f

/-- Every operation that completes ends with pc + 1 (R38) and leaves the program as it is (R69; that the program is a
field of State is the model's choice, DESIGN CHOICE, notes/assumptions/1.md). -/
def Obligations.OperationsAdvancePcByOneAndKeepTheProgram : Prop :=
  ∀ (i : Instr) (s t : State), exec i s = .next t → t.pc = s.pc + 1 ∧ t.program = s.program

/-- A run of n steps, from any state, moves pc by n and ends with the program it began with (R38, R69; the program in
State, DESIGN CHOICE, notes/assumptions/1.md). -/
def Obligations.RunsAdvancePcAndKeepTheProgram : Prop :=
  ∀ (n : Nat) (s t : State), Host.Core.run core n s = .next t → t.pc = s.pc + n ∧ t.program = s.program

/-- Every step keeps the invariant: pc within the program (R38), no more outputs and no more counted free values than
operations executed (R150, R173, R178, R182). The outputs list and the counter are the model's choice (DESIGN CHOICE,
notes/assumptions/31.md, 16.md): a read of ASTAT, whose free bits are each a draw of R178, counts as one free word. -/
def Obligations.StepKeepsTheRunInvariant : Prop :=
  ∀ s t : State, s.Inv → step s = .next t → t.Inv

/-- The launch state meets the invariant, with pc at 0 (R39). That the program, the outputs and the counter of free
values start empty is the model's choice (DESIGN CHOICE, notes/assumptions/5.md). -/
def Obligations.LaunchStateMeetsTheRunInvariant : Prop :=
  State.reset.Inv ∧ State.reset.pc = 0

/-! ## Register banks -/

/-- With b = MSTAT.0 at the start of an operation (R33): the other copy of the MAC registers keeps its value; replacing
it changes neither whether the operation completes nor anything in its next state but that copy; and changing MSTAT.0
moves no data and selects the copy the next operation uses (DEDUCED, notes/assumptions/28.md). -/
def Obligations.UnselectedMacBankIsNeitherReadNorWritten : Prop :=
  ∀ (i : Instr) (s : State),
    (∀ t, exec i s = .next t → t.macCopy (!s.mstat.bank) = s.macCopy (!s.mstat.bank)) ∧
    (∀ m : MacRegs,
      exec i (s.withMacCopy (!s.mstat.bank) m) = mapNext (State.withMacCopy (!s.mstat.bank) m) (exec i s)) ∧
    (∀ b : Bool, ∃ t, exec (.setMode 0 b) s = .next t ∧ t.macPrimary = s.macPrimary ∧
      t.macSecondary = s.macSecondary ∧ t.mac = s.macCopy b)

/-- The ALU registers, for both values of ALU_REGS_BANKED (R34; notes/assumptions/20.md): the copy that is not in use,
which is the second one unless the registers are banked and MSTAT.0 is 1, is neither read nor written. -/
def Obligations.AluCopyNotInUseIsNeitherReadNorWritten : Prop :=
  ∀ (i : Instr) (s : State),
    let unused := !(s.mstat.bank && Config.aluRegsBanked)
    (∀ t, exec i s = .next t → t.aluCopy unused = s.aluCopy unused) ∧
    (∀ a : AluRegs, exec i (s.withAluCopy unused a) = mapNext (State.withAluCopy unused a) (exec i s))

/-! ## Which operations write what -/

/-- AQ is written only by DIVS and DIVQ and by a bus write of ASTAT (R107): any other operation that completes keeps
it, and so does every operation of the ALU and the MAC. -/
def Obligations.OnlyDivisionAndAstatWritesChangeAq : Prop :=
  ∀ (i : Instr) (s t : State), exec i s = .next t → t.astat.AQ ≠ s.astat.AQ →
    (∃ y x, i = .divs y x) ∨ (∃ x, i = .divq x) ∨ (∃ v, i = .busWriteAstat v)

/-- No operation but a bus write of ASTAT changes AS, and ABS, the only instruction the source names as its writer, is
refused in every state, by name (R105). -/
def Obligations.OnlyAstatWritesChangeAsAndAbsIsRefused : Prop :=
  (∀ (i : Instr) (s t : State), exec i s = .next t → t.astat.AS ≠ s.astat.AS → ∃ v, i = .busWriteAstat v) ∧
  ∀ s : State, exec .abs s = .refused .absNotInSource

/-- AZ, AN, AC and AV are changed only by an ALU operation or a bus write of ASTAT: not by DIVS or DIVQ (R108;
PRESUMED, notes/assumptions/12.md), not by a MAC operation (R109), not by a bus access or a change of mode. -/
def Obligations.OnlyAluOperationsAndAstatWritesChangeAluFlags : Prop :=
  ∀ (i : Instr) (s t : State), exec i s = .next t →
    (t.astat.AZ ≠ s.astat.AZ ∨ t.astat.AN ≠ s.astat.AN ∨ t.astat.AC ≠ s.astat.AC ∨ t.astat.AV ≠ s.astat.AV) →
    (∃ f d x y, i = .aluop f d x y) ∨ (∃ v, i = .busWriteAstat v)

/-- MV is changed only by a MAC operation or a bus write of ASTAT (R148, R179); a bus write of MR does not recompute
it (R174; DEDUCED, notes/assumptions/25.md). -/
def Obligations.OnlyMacOperationsAndAstatWritesChangeMv : Prop :=
  ∀ (i : Instr) (s t : State), exec i s = .next t → t.astat.MV ≠ s.astat.MV →
    (∃ d x y f c, i = .mul d x y f c ∨ i = .macadd d x y f c ∨ i = .macsub d x y f c) ∨
    (∃ c, i = .mrclr c) ∨ (∃ v, i = .busWriteAstat v)

/-- AF is changed only by DIVS, DIVQ and ALUOP, and MF, in either copy, only by a MAC operation with destination MF
(R176; DEDUCED, notes/assumptions/27.md). -/
def Obligations.OnlyComputationsChangeAfAndMf : Prop :=
  ∀ (i : Instr) (s t : State), exec i s = .next t →
    ((t.aluPrimary.AF ≠ s.aluPrimary.AF ∨ t.aluSecondary.AF ≠ s.aluSecondary.AF) →
      (∃ y x, i = .divs y x) ∨ (∃ x, i = .divq x) ∨ (∃ f x y, i = .aluop f .af x y)) ∧
    ((t.macPrimary.MF ≠ s.macPrimary.MF ∨ t.macSecondary.MF ≠ s.macSecondary.MF) →
      ∃ x y f c, i = .mul .mf x y f c ∨ i = .macadd .mf x y f c ∨ i = .macsub .mf x y f c)

/-- No operation writes SR0 or SR1 (R21; DEDUCED, notes/assumptions/37.md), and only SetMode changes a mode bit (R180;
DEDUCED, notes/assumptions/28.md). -/
def Obligations.ShifterResultsStayAndOnlySetModeChangesModes : Prop :=
  ∀ (i : Instr) (s t : State), exec i s = .next t →
    t.SR0 = s.SR0 ∧ t.SR1 = s.SR1 ∧ (t.mstat ≠ s.mstat → ∃ bit value, i = .setMode bit value)

/-! ## The overflow latch and the ALU flags -/

/-- In latch mode AV, once set, is returned to 0 by no operation but a bus write of ASTAT (R102, R103; that it can
clear AV with the other flags is DEDUCED, notes/assumptions/22.md). -/
def Obligations.LatchedAvIsClearedOnlyByAnAstatWrite : Prop :=
  ∀ (i : Instr) (s t : State), s.mstat.latch = true → s.astat.AV = true → exec i s = .next t →
    t.astat.AV = false → ∃ v, i = .busWriteAstat v

/-- The rule of the latch mode (R102): an ALU operation with overflow indication ov that writes AV writes AV or ov, and
one that does not write AV leaves it, so that once AV is 1 no ALU operation returns it to 0. It is said of every ALU
function, and operation n of the machine is the operation of entry n of the ALU function table. The operand forms of
ALUOP are PRESUMED (notes/assumptions/29.md). -/
def Obligations.LatchModeOrsTheOverflowIntoAv : Prop :=
  ∀ (d : AluDest) (x : AluXop) (y : AluYop) (s : State), s.mstat.latch = true →
    (∀ f : AluFunction,
      let o := f (busValue x.reg s) (busValue y.reg s) s.astat.AC
      ((aluWith f d x y s).astat.AV = if o.writes.AV then s.astat.AV || o.ov else s.astat.AV) ∧
      (s.astat.AV = true → (aluWith f d x y s).astat.AV = true)) ∧
    ∀ n : Nat, exec (.aluop n d x y) s = .next (aluWith (Config.aluFunction n) d x y s)

/-- With the latch mode off an ALU operation that writes AV writes the overflow indication itself (R101; that it also
clears AV is DEDUCED, notes/assumptions/13.md), and one that does not write AV leaves it. It is said of every ALU
function, and operation n of the machine is the operation of entry n of the ALU function table. The operand forms of
ALUOP are PRESUMED (notes/assumptions/29.md). -/
def Obligations.WithoutLatchAvFollowsTheOverflow : Prop :=
  ∀ (d : AluDest) (x : AluXop) (y : AluYop) (s : State), s.mstat.latch = false →
    (∀ f : AluFunction,
      let o := f (busValue x.reg s) (busValue y.reg s) s.astat.AC
      (aluWith f d x y s).astat.AV = if o.writes.AV then o.ov else s.astat.AV) ∧
    ∀ n : Nat, exec (.aluop n d x y) s = .next (aluWith (Config.aluFunction n) d x y s)

/-- The abstract ALU operation (R106), for every entry of the table: result to AR or AF, the flags of the mask from
the result and the function's answers (R101, R102, R104), every other flag, register and mode bit as before. The shape
of the operation is PRESUMED (notes/assumptions/29.md), that AV is cleared DEDUCED (notes/assumptions/13.md). -/
def Obligations.AluOperationWritesResultAndMaskedFlags : Prop :=
  ∀ (f : Nat) (d : AluDest) (x : AluXop) (y : AluYop) (s : State),
    let o := Config.aluFunction f (busValue x.reg s) (busValue y.reg s) s.astat.AC
    ∃ t, exec (.aluop f d x y) s = .next t ∧
      (t.astat.AZ = if o.writes.AZ then decide (o.result.toNat = 0) else s.astat.AZ) ∧
      (t.astat.AN = if o.writes.AN then decide (2 ^ 15 ≤ o.result.toNat) else s.astat.AN) ∧
      (t.astat.AC = if o.writes.AC then o.carry else s.astat.AC) ∧
      (t.astat.AV = if o.writes.AV then o.ov || (s.mstat.latch && s.astat.AV) else s.astat.AV) ∧
      t = { s.setAlu (match d with
              | .ar => { s.alu with AR := o.result }
              | .af => { s.alu with AF := o.result }) with
            astat := { s.astat with
              AZ := t.astat.AZ, AN := t.astat.AN, AC := t.astat.AC, AV := t.astat.AV }
            pc := s.pc + 1 }

/-! ## The division primitives. The lines of the lost figures are the model's choice (PRESUMED,
notes/assumptions/11.md), and so is that the other flags are kept (notes/assumptions/12.md). -/

/-- DIVS (R123): AQ is the exclusive-or of the signs of divisor and dividend; the 32-bit dividend yop:AY0 is shifted
left by one into AF:AY0 with AQ at bit 0; nothing else but pc changes. What AF receives and the direction of the shift
are PRESUMED (notes/assumptions/11.md), and so is that the other flags are kept (notes/assumptions/12.md). -/
def Obligations.DivsShiftsTheDividendAndSetsTheSign : Prop :=
  ∀ (y : DivsYop) (x : AluXop) (s : State), y = .ay1 ∨ y = .af →
    ∃ t, exec (.divs y x) s = .next t ∧
      t.astat.AQ = ((busValue x.reg s).getLsbD 15 ^^ (busValue y.reg s).getLsbD 15) ∧
      t.alu.AF.toNat * 2 ^ 16 + t.alu.AY0.toNat =
        2 * ((busValue y.reg s).toNat * 2 ^ 16 + s.alu.AY0.toNat) % 2 ^ 32 + t.astat.AQ.toNat ∧
      t = { s.setAlu { s.alu with AF := t.alu.AF, AY0 := t.alu.AY0 } with
            astat := { s.astat with AQ := t.astat.AQ }, pc := s.pc + 1 }

/-- A yop of DIVS other than AY1 or AF is refused (R83). -/
def Obligations.DivsOfAnotherYopIsRefused : Prop :=
  ∀ (y : DivsYop) (x : AluXop) (s : State), y ≠ .ay1 → y ≠ .af → exec (.divs y x) s = .refused .divsYop

/-- DIVQ (R126): with r the sum (AQ = 1) or difference (AQ = 0) of AF and the divisor modulo 2^16, the new AQ is the
exclusive-or of the signs of divisor and r, and r:AY0 is shifted left by one into AF:AY0 with the complement of the
new AQ at bit 0; nothing else but pc changes. The new AQ, the quotient bit and the shift into AF are PRESUMED
(notes/assumptions/11.md), and so is that the other flags are kept (notes/assumptions/12.md). -/
def Obligations.DivqAddsOrSubtractsAndShifts : Prop :=
  ∀ (x : AluXop) (s : State), ∃ t, exec (.divq x) s = .next t ∧
    ∃ r : Nat,
      r = (if s.astat.AQ then s.alu.AF.toNat + (busValue x.reg s).toNat
            else s.alu.AF.toNat + 2 ^ 16 - (busValue x.reg s).toNat) % 2 ^ 16 ∧
      t.astat.AQ = (decide (2 ^ 15 ≤ (busValue x.reg s).toNat) ^^ decide (2 ^ 15 ≤ r)) ∧
      t.alu.AF.toNat * 2 ^ 16 + t.alu.AY0.toNat =
        2 * (r * 2 ^ 16 + s.alu.AY0.toNat) % 2 ^ 32 + (!t.astat.AQ).toNat ∧
      t = { s.setAlu { s.alu with AF := t.alu.AF, AY0 := t.alu.AY0 } with
            astat := { s.astat with AQ := t.astat.AQ }, pc := s.pc + 1 }

/-- DIVQ is one step of non-restoring division: for a divisor d from 1 to 0x7FFF and a partial remainder P with
-2d ≤ P < 2d, the step takes P - d or P + d towards 0, yields quotient bit 1 exactly when that is not negative,
and leaves a partial remainder, doubled and with the next dividend bit, in the same range (R126, R134). All of it rests
on the lines of R126 that are PRESUMED (notes/assumptions/11.md). -/
def Obligations.DivqIsOneNonRestoringStep : Prop :=
  ∀ (x : AluXop) (s : State),
    let d : Int := (busValue x.reg s).toNat
    let p := partialRemainder s
    let r := if s.astat.AQ then p + d else p - d
    0 < d → d < 2 ^ 15 → -2 * d ≤ p → p < 2 * d →
      ∃ t, exec (.divq x) s = .next t ∧
        partialRemainder t = 2 * r + (s.alu.AY0.getLsbD 15).toNat ∧
        -2 * d ≤ partialRemainder t ∧ partialRemainder t < 2 * d ∧
        t.alu.AY0.getLsbD 0 = decide (0 ≤ r) ∧ t.alu.AY0.toNat / 2 = s.alu.AY0.toNat % 2 ^ 15

/-- A divisor of zero stops neither primitive and sets no flag but AQ: DIVS takes the dividend's sign, DIVQ the sign
of the partial remainder, which it only shifts (R124, R127, R191). AF and AQ after DIVQ are PRESUMED
(notes/assumptions/11.md), and so is that no flag but AQ is written (notes/assumptions/12.md). -/
def Obligations.DivisionByZeroCompletes : Prop :=
  ∀ (x : AluXop) (s : State), busValue x.reg s = 0 →
    (∃ t, exec (.divs .ay1 x) s = .next t ∧ t.astat = { s.astat with AQ := s.alu.AY1.getLsbD 15 }) ∧
    (∃ t, exec (.divs .af x) s = .next t ∧ t.astat = { s.astat with AQ := s.alu.AF.getLsbD 15 }) ∧
    (∃ t, exec (.divq x) s = .next t ∧ t.astat = { s.astat with AQ := s.alu.AF.getLsbD 15 } ∧
      t.alu.AF.toNat = 2 * s.alu.AF.toNat % 2 ^ 16 + (s.alu.AY0.getLsbD 15).toNat)

/-! ## The multiplier-accumulator -/

/-- MUL into MR: MR is the product as it is presented to the adder, for every operand, format and mode (R142 to R149,
R151). The presented product is the exact product (twice it in fractional mode), but for two unsigned operands whose
product is 2^31 or more, where MAC_UU_EXTENSION = sign makes it 2^32 less before the doubling (R146; the parameter,
notes/assumptions/17.md). The extension of the other products to 40 bits is DEDUCED (notes/assumptions/18.md), MV
PRESUMED (notes/assumptions/14.md). -/
def Obligations.MulIntoMrIsThePresentedProduct : Prop :=
  ∀ (x : MacXop) (y : MacYop) (f : Fmt) (s : State), y ≠ .zero →
    WritesMr (.mul .mr x y f Cond.always) s fun t =>
      t.mac.MR.toInt =
        presentedProduct Config.macUuExtension s.mstat.integer f (busValue x.reg s) (busValue y.reg s)

/-- MACADD into MR: the old MR plus the product as it is presented to the adder, modulo 2^40 (R142 to R149, R152). The
presented product is the exact product (twice it in fractional mode), but for two unsigned operands whose product is
2^31 or more, where MAC_UU_EXTENSION = sign makes it 2^32 less before the doubling (R146; the parameter,
notes/assumptions/17.md). The extension of the other products and the wrap are DEDUCED (notes/assumptions/18.md,
19.md), MV PRESUMED (notes/assumptions/14.md). -/
def Obligations.MacaddIntoMrAddsThePresentedProduct : Prop :=
  ∀ (x : MacXop) (y : MacYop) (f : Fmt) (s : State), y ≠ .zero →
    WritesMr (.macadd .mr x y f Cond.always) s fun t =>
      t.mac.MR.toInt = (s.mac.MR.toInt +
        presentedProduct Config.macUuExtension s.mstat.integer f (busValue x.reg s) (busValue y.reg s)).bmod (2 ^ 40)

/-- MACSUB into MR: the old MR minus the product as it is presented to the adder, modulo 2^40 (R142 to R149, R153). The
presented product is the exact product (twice it in fractional mode), but for two unsigned operands whose product is
2^31 or more, where MAC_UU_EXTENSION = sign makes it 2^32 less before the doubling (R146; the parameter,
notes/assumptions/17.md). The extension of the other products and the wrap are DEDUCED (notes/assumptions/18.md,
19.md), MV PRESUMED (notes/assumptions/14.md). -/
def Obligations.MacsubIntoMrSubtractsThePresentedProduct : Prop :=
  ∀ (x : MacXop) (y : MacYop) (f : Fmt) (s : State), y ≠ .zero →
    WritesMr (.macsub .mr x y f Cond.always) s fun t =>
      t.mac.MR.toInt = (s.mac.MR.toInt -
        presentedProduct Config.macUuExtension s.mstat.integer f (busValue x.reg s) (busValue y.reg s)).bmod (2 ^ 40)

/-- MUL, MACADD and MACSUB into MF (R150 to R153): bits 31 to 16 of the result, which is computed from the presented
product (R146; the parameter MAC_UU_EXTENSION, notes/assumptions/17.md). That MR is kept is PRESUMED
(notes/assumptions/15.md); the extension and the wrap are DEDUCED (notes/assumptions/18.md, 19.md). -/
def Obligations.MacOperationsIntoMfKeepMr : Prop :=
  ∀ (x : MacXop) (y : MacYop) (f : Fmt) (s : State), y ≠ .zero →
    let p := presentedProduct Config.macUuExtension s.mstat.integer f (busValue x.reg s) (busValue y.reg s)
    WritesMf (.mul .mf x y f Cond.always) s p ∧
    WritesMf (.macadd .mf x y f Cond.always) s (s.mac.MR.toInt + p) ∧
    WritesMf (.macsub .mf x y f Cond.always) s (s.mac.MR.toInt - p)

/-- The product is the exact product of the numbers the format says X and Y are, each signed or unsigned (R84, R142,
R143), and it fits port P's 32 bits: as a signed number unless both are unsigned, and as an unsigned number if they
are. -/
def Obligations.ProductsFitThePort : Prop :=
  ∀ (f : Fmt) (x y : Word),
    let xv : Int := if f = .ss ∨ f = .su then x.toInt else x.toNat
    let yv : Int := if f = .ss ∨ f = .us then y.toInt else y.toNat
    macProduct f x y = xv * yv ∧
    (f ≠ .uu → -2 ^ 31 < macProduct f x y ∧ macProduct f x y < 2 ^ 31) ∧
    (f = .uu → 0 ≤ macProduct f x y ∧ macProduct f x y ≤ 0xFFFE0001)

/-- In fractional mode the value presented to the adder is P shifted left by one (R144): bit 31 of P in bit 32, bit 0
in bit 1, every bit between likewise, and 0 in the LSB; it is that value that MUL passes on, MACADD adds to MR and
MACSUB subtracts from it, for either destination, modulo 2^40 (DEDUCED,
notes/assumptions/19.md). P is the product modulo 2^32. -/
def Obligations.FractionalModeShiftsTheProductLeftByOne : Prop :=
  ∀ (x : MacXop) (y : MacYop) (f : Fmt) (s : State), y ≠ .zero → s.mstat.integer = false →
    let p := BitVec.ofInt 32 (presentedProduct .zero true f (busValue x.reg s) (busValue y.reg s))
    ∃ v : Acc, v.getLsbD 0 = false ∧ (∀ j < 32, v.getLsbD (j + 1) = p.getLsbD j) ∧
      (∃ t, exec (.mul .mr x y f Cond.always) s = .next t ∧ t.mac.MR = v) ∧
      (∃ t, exec (.macadd .mr x y f Cond.always) s = .next t ∧ t.mac.MR = s.mac.MR + v) ∧
      (∃ t, exec (.macsub .mr x y f Cond.always) s = .next t ∧ t.mac.MR = s.mac.MR - v) ∧
      (∃ t, exec (.mul .mf x y f Cond.always) s = .next t ∧ t.mac.MF = v.extractLsb' 16 16) ∧
      (∃ t, exec (.macadd .mf x y f Cond.always) s = .next t ∧ t.mac.MF = (s.mac.MR + v).extractLsb' 16 16) ∧
      (∃ t, exec (.macsub .mf x y f Cond.always) s = .next t ∧ t.mac.MF = (s.mac.MR - v).extractLsb' 16 16)

/-- MRCLR clears all of MR and MV, and nothing else but pc changes (R154; MV PRESUMED, notes/assumptions/14.md). -/
def Obligations.MrclrClearsMrAndMv : Prop :=
  ∀ s : State, exec (.mrclr Cond.always) s =
    .next { s.setMac { s.mac with MR := 0 } with astat := { s.astat with MV := false }, pc := s.pc + 1 }

/-- The MAC forms left out are refused by name: a condition other than 1111 (R157), yop code 3 (R82, R86), and with
destination MF X×Y with yop code 3, the clear of MF (R154). DEDUCED (notes/assumptions/9.md, 10.md). -/
def Obligations.MacFormsLeftOutAreRefused : Prop :=
  ∀ (d : MacDest) (x : MacXop) (y : MacYop) (f : Fmt) (c : Cond) (s : State),
    (c ≠ Cond.always →
      exec (.mul d x y f c) s = .refused .conditionalForm ∧
      exec (.macadd d x y f c) s = .refused .conditionalForm ∧
      exec (.macsub d x y f c) s = .refused .conditionalForm ∧
      exec (.mrclr c) s = .refused .conditionalForm) ∧
    exec (.mul .mf x .zero f Cond.always) s = .refused .clearOfMf ∧
    exec (.mul .mr x .zero f Cond.always) s = .refused .macYop ∧
    exec (.macadd d x .zero f Cond.always) s = .refused .macYop ∧
    exec (.macsub d x .zero f Cond.always) s = .refused .macYop

/-! ## Register access -/

/-- BusRead hands out what the register drives on the bus, MR2 sign-extended, and changes no register and no flag
(R172, R173), for the registers R171 makes readable. That AX0, AX1, AY0, AY1 and AR are among them is DEDUCED
(notes/assumptions/26.md). -/
def Obligations.BusReadHandsOutTheRegister : Prop :=
  ∀ (r : Reg) (s : State), r.dmdReadable = true →
    exec (.busRead r) s = .next { s with outputs := s.outputs ++ [busValue r s], pc := s.pc + 1 }

/-- PmdRead hands out MY0 or MY1 and changes no register and no flag (R182). -/
def Obligations.PmdReadHandsOutMy : Prop :=
  ∀ s : State,
    exec (.pmdRead .my0) s = .next { s with outputs := s.outputs ++ [s.mac.MY0], pc := s.pc + 1 } ∧
    exec (.pmdRead .my1) s = .next { s with outputs := s.outputs ++ [s.mac.MY1], pc := s.pc + 1 }

/-- A read of ASTAT hands out a word with each flag at its position and changes no register and no flag; nothing is
said of the other bits, which are free (R178). That ASTAT is read is DEDUCED (notes/assumptions/23.md), that MV stands
in it PRESUMED (notes/assumptions/21.md). -/
def Obligations.AstatReadPlacesEachFlag : Prop :=
  ∀ s : State, ∃ w : Word,
    exec .busReadAstat s =
      .next { s with outputs := s.outputs ++ [w], pc := s.pc + 1, draws := s.draws + 1 } ∧
    ∀ f : AstatFlag, w.getLsbD (Config.astatLayout.position f) = s.astat.get f

/-- A write of ASTAT takes each of the seven flags from its position, in both latch modes, and changes nothing else
but pc (R103, R179). That the whole register is written is DEDUCED (notes/assumptions/22.md), that MV stands in it
PRESUMED (notes/assumptions/21.md). -/
def Obligations.AstatWriteTakesEachFlag : Prop :=
  ∀ (v : Word) (s : State), ∃ t, exec (.busWriteAstat v) s = .next t ∧
    (∀ f : AstatFlag, t.astat.get f = v.getLsbD (Config.astatLayout.position f)) ∧
    t = { s with astat := t.astat, pc := s.pc + 1 }

/-- What a write of ASTAT puts into the flags, a read of ASTAT hands out again, at every position of a flag (R178,
R179; notes/assumptions/21.md to 23.md). -/
def Obligations.AstatReadAfterWriteGivesTheFlags : Prop :=
  ∀ (v : Word) (s : State), ∃ t u w, exec (.busWriteAstat v) s = .next t ∧ exec .busReadAstat t = .next u ∧
    u.outputs = s.outputs ++ [w] ∧
    ∀ f : AstatFlag, w.getLsbD (Config.astatLayout.position f) = v.getLsbD (Config.astatLayout.position f)

/-- A bus write of a 16-bit register other than a section of MR writes that register, in the copy in use, and changes
nothing else but pc (R174). That the ALU registers have this path is DEDUCED (notes/assumptions/26.md). -/
def Obligations.BusWriteWritesTheRegister : Prop :=
  ∀ (v : Word) (s : State),
    exec (.busWrite .ax0 v) s = .next { s.setAlu { s.alu with AX0 := v } with pc := s.pc + 1 } ∧
    exec (.busWrite .ax1 v) s = .next { s.setAlu { s.alu with AX1 := v } with pc := s.pc + 1 } ∧
    exec (.busWrite .ay0 v) s = .next { s.setAlu { s.alu with AY0 := v } with pc := s.pc + 1 } ∧
    exec (.busWrite .ay1 v) s = .next { s.setAlu { s.alu with AY1 := v } with pc := s.pc + 1 } ∧
    exec (.busWrite .ar v) s = .next { s.setAlu { s.alu with AR := v } with pc := s.pc + 1 } ∧
    exec (.busWrite .mx0 v) s = .next { s.setMac { s.mac with MX0 := v } with pc := s.pc + 1 } ∧
    exec (.busWrite .mx1 v) s = .next { s.setMac { s.mac with MX1 := v } with pc := s.pc + 1 } ∧
    exec (.busWrite .my0 v) s = .next { s.setMac { s.mac with MY0 := v } with pc := s.pc + 1 } ∧
    exec (.busWrite .my1 v) s = .next { s.setMac { s.mac with MY1 := v } with pc := s.pc + 1 }

/-- A bus write of MR0 replaces bits 15 to 0 of MR and one of MR1 bits 31 to 16; MR0 leaves the rest of MR, MR1
leaves MR0, and MR2 is kept or becomes the sign of the new MR1 as MR1_LOAD_SIGN_EXTENDS says; MV is not recomputed
(R174, R177; DEDUCED, notes/assumptions/25.md; the parameter, notes/assumptions/24.md). -/
def Obligations.BusWriteOfMr0AndMr1 : Prop :=
  ∀ (v : Word) (s : State),
    (∃ t, exec (.busWrite .mr0 v) s = .next t ∧
      t.mac.MR.toNat = s.mac.MR.toNat / 2 ^ 16 * 2 ^ 16 + v.toNat ∧
      t = { s.setMac { s.mac with MR := t.mac.MR } with pc := s.pc + 1 }) ∧
    (∃ t, exec (.busWrite .mr1 v) s = .next t ∧
      t.mac.MR.toNat = (if Config.mr1LoadSignExtends then (if 2 ^ 15 ≤ v.toNat then 0xFF else 0)
          else s.mac.MR.toNat / 2 ^ 32) * 2 ^ 32 + v.toNat * 2 ^ 16 + s.mac.MR.toNat % 2 ^ 16 ∧
      t = { s.setMac { s.mac with MR := t.mac.MR } with pc := s.pc + 1 })

/-- A bus write of MR2 takes the low eight bits of the bus, leaves MR0, MR1 and every flag, and changes nothing else
but pc (R175; that MV is kept is DEDUCED, notes/assumptions/25.md). That it has two spellings with one effect is the
model's choice (DESIGN CHOICE, notes/assumptions/34.md). -/
def Obligations.BusWriteOfMr2TakesTheLowByte : Prop :=
  ∀ (v : Word) (s : State), ∃ t, exec (.busWriteMr2 v) s = .next t ∧ exec (.busWrite .mr2 v) s = .next t ∧
    t.mac.MR.toNat = v.toNat % 2 ^ 8 * 2 ^ 32 + s.mac.MR.toNat % 2 ^ 32 ∧
    t = { s.setMac { s.mac with MR := t.mac.MR } with pc := s.pc + 1 }

/-- A bus read after a bus write of the same register hands out the value written; for MR2 its low byte,
sign-extended (R172 to R175; paths of the ALU registers DEDUCED, notes/assumptions/26.md). -/
def Obligations.BusReadAfterBusWriteGivesTheValue : Prop :=
  ∀ (r : Reg) (v : Word) (s : State), r.dmdWritable = true →
    ∃ t u, exec (.busWrite r v) s = .next t ∧ exec (.busRead r) t = .next u ∧
      u.outputs = s.outputs ++ [if r = .mr2 then BitVec.ofInt 16 ((v.toNat : Int).bmod (2 ^ 8)) else v]

/-- PmdWrite writes MY0 or MY1 and changes nothing else but pc; a bus write of the same register has the same effect
(R181). -/
def Obligations.PmdWriteWritesMy : Prop :=
  ∀ (v : Word) (s : State),
    exec (.pmdWrite .my0 v) s = .next { s.setMac { s.mac with MY0 := v } with pc := s.pc + 1 } ∧
    exec (.pmdWrite .my1 v) s = .next { s.setMac { s.mac with MY1 := v } with pc := s.pc + 1 } ∧
    exec (.busWrite .my0 v) s = exec (.pmdWrite .my0 v) s ∧
    exec (.busWrite .my1 v) s = exec (.pmdWrite .my1 v) s

/-- A bus access outside the table of R171 is refused by name: MF, AF, SR0, SR1 and MSTAT have no DMD path, and only
MY0 and MY1 are on the PMD bus (R171, R176; DEDUCED, notes/assumptions/27.md). -/
def Obligations.AccessesWithoutABusPathAreRefused : Prop :=
  ∀ (r : Reg) (v : Word) (s : State),
    (r ∈ [Reg.mf, .af, .sr0, .sr1, .mstat] →
      exec (.busRead r) s = .refused .noBusPath ∧ exec (.busWrite r v) s = .refused .noBusPath) ∧
    (r ≠ .my0 ∧ r ≠ .my1 →
      exec (.pmdRead r) s = .refused .noBusPath ∧ exec (.pmdWrite r v) s = .refused .noBusPath)

/-- SetMode writes one named bit of MSTAT and changes nothing else but pc: no register is moved, AV and MR are kept
(R33, R180; SetMode is DEDUCED, notes/assumptions/28.md). -/
def Obligations.SetModeWritesOneModeBit : Prop :=
  ∀ (b : Bool) (s : State),
    exec (.setMode 0 b) s = .next { s with mstat := { s.mstat with bank := b }, pc := s.pc + 1 } ∧
    exec (.setMode 2 b) s = .next { s with mstat := { s.mstat with latch := b }, pc := s.pc + 1 } ∧
    exec (.setMode 4 b) s = .next { s with mstat := { s.mstat with integer := b }, pc := s.pc + 1 }

/-- SetMode of any bit but 0, 2 and 4 is refused (R30, R180; DEDUCED, notes/assumptions/28.md). -/
def Obligations.SetModeOfAnotherBitIsRefused : Prop :=
  ∀ (bit : Nat) (b : Bool) (s : State), bit ≠ 0 → bit ≠ 2 → bit ≠ 4 →
    exec (.setMode bit b) s = .refused .mstatBit
end

