-- ==== Sys2Proof/Laws/Decode.lean ====
section
/-! SUPPORT. The field codes of the general-knowledge encoding (30_encoding.md rule R89): each code decodes to the
operand that is encoded by it, and back. -/

namespace Sys2Proof

@[simp] theorem decodeAluXop_encode (x : AluXop) : decodeAluXop (encodeAluXop x) = x := by cases x <;> rfl
@[simp] theorem decodeMacXop_encode (x : MacXop) : decodeMacXop (encodeMacXop x) = x := by cases x <;> rfl
@[simp] theorem decodeDivsYop_encode (y : DivsYop) : decodeDivsYop (encodeDivsYop y) = y := by cases y <;> rfl
@[simp] theorem decodeMacYop_encode (y : MacYop) : decodeMacYop (encodeMacYop y) = y := by cases y <;> rfl
@[simp] theorem decodeMacDest_encode (d : MacDest) : decodeMacDest (encodeMacDest d) = d := by cases d <;> rfl
@[simp] theorem decodeFmt_encode (f : Fmt) : decodeFmt (encodeFmt f) = f := by cases f <;> rfl

@[simp] theorem encodeAluXop_decode (b : BitVec 3) : encodeAluXop (decodeAluXop b) = b := by revert b; decide
@[simp] theorem encodeMacXop_decode (b : BitVec 3) : encodeMacXop (decodeMacXop b) = b := by revert b; decide
@[simp] theorem encodeDivsYop_decode (b : BitVec 2) : encodeDivsYop (decodeDivsYop b) = b := by revert b; decide
@[simp] theorem encodeMacYop_decode (b : BitVec 2) : encodeMacYop (decodeMacYop b) = b := by revert b; decide
@[simp] theorem encodeMacDest_decode (b : BitVec 1) : encodeMacDest (decodeMacDest b) = b := by revert b; decide
@[simp] theorem encodeFmt_decode (b : BitVec 2) : encodeFmt (decodeFmt b) = b := by revert b; decide

/-! ### The words of the three patterns, put together and taken apart -/

theorem macWord_toNat (p : BitVec 5) (z : BitVec 1) (g : BitVec 3) (f y : BitVec 2) (x : BitVec 3) (o c : BitVec 4) :
    (p ++ z ++ g ++ f ++ y ++ x ++ o ++ c : BitVec (5 + 1 + 3 + 2 + 2 + 3 + 4 + 4)).toNat =
      p.toNat * 2 ^ 19 + z.toNat * 2 ^ 18 + g.toNat * 2 ^ 15 + f.toNat * 2 ^ 13 + y.toNat * 2 ^ 11 +
        x.toNat * 2 ^ 8 + o.toNat * 2 ^ 4 + c.toNat := by
  have := z.isLt; have := g.isLt; have := f.isLt; have := y.isLt; have := x.isLt; have := o.isLt; have := c.isLt
  simp only [BitVec.toNat_append]
  repeat rw [← Nat.shiftLeft_add_eq_or_of_lt (by omega)]
  simp only [Nat.shiftLeft_eq]
  omega

theorem divsWord_toNat (p : BitVec 11) (y : BitVec 2) (x : BitVec 3) (o : BitVec 8) :
    (p ++ y ++ x ++ o : BitVec (11 + 2 + 3 + 8)).toNat =
      p.toNat * 2 ^ 13 + y.toNat * 2 ^ 11 + x.toNat * 2 ^ 8 + o.toNat := by
  have := y.isLt; have := x.isLt; have := o.isLt
  simp only [BitVec.toNat_append]
  repeat rw [← Nat.shiftLeft_add_eq_or_of_lt (by omega)]
  simp only [Nat.shiftLeft_eq]
  omega

theorem divqWord_toNat (p : BitVec 13) (x : BitVec 3) (o : BitVec 8) :
    (p ++ x ++ o : BitVec (13 + 3 + 8)).toNat = p.toNat * 2 ^ 11 + x.toNat * 2 ^ 8 + o.toNat := by
  have := x.isLt; have := o.isLt
  simp only [BitVec.toNat_append]
  repeat rw [← Nat.shiftLeft_add_eq_or_of_lt (by omega)]
  simp only [Nat.shiftLeft_eq]
  omega

/-- Every field of the ALU/MAC pattern reads back from the word. -/
theorem macWord_fields (p : BitVec 5) (z : BitVec 1) (g : BitVec 3) (f y : BitVec 2) (x : BitVec 3) (o c : BitVec 4) :
    let w : Code := (p ++ z ++ g ++ f ++ y ++ x ++ o ++ c : BitVec (5 + 1 + 3 + 2 + 2 + 3 + 4 + 4))
    w.extractLsb' 19 5 = p ∧ w.extractLsb' 18 1 = z ∧ w.extractLsb' 15 3 = g ∧ w.extractLsb' 13 2 = f ∧
    w.extractLsb' 11 2 = y ∧ w.extractLsb' 8 3 = x ∧ w.extractLsb' 4 4 = o ∧ w.extractLsb' 0 4 = c := by
  intro w
  have hw : w.toNat = _ := macWord_toNat p z g f y x o c
  have := p.isLt; have := z.isLt; have := g.isLt; have := f.isLt
  have := y.isLt; have := x.isLt; have := o.isLt; have := c.isLt
  refine ⟨?_, ?_, ?_, ?_, ?_, ?_, ?_, ?_⟩ <;> apply BitVec.eq_of_toNat_eq <;>
    simp only [BitVec.extractLsb'_toNat, Nat.shiftRight_eq_div_pow, hw] <;> omega

/-- Every word is the concatenation of its fields, by each of the three patterns. -/
theorem macWord_eta (w : Code) :
    w = (w.extractLsb' 19 5 ++ w.extractLsb' 18 1 ++ w.extractLsb' 15 3 ++ w.extractLsb' 13 2 ++ w.extractLsb' 11 2 ++
      w.extractLsb' 8 3 ++ w.extractLsb' 4 4 ++ w.extractLsb' 0 4 : BitVec (5 + 1 + 3 + 2 + 2 + 3 + 4 + 4)) := by
  apply BitVec.eq_of_toNat_eq
  rw [macWord_toNat]
  have := w.isLt
  simp only [BitVec.extractLsb'_toNat, Nat.shiftRight_eq_div_pow]
  omega

theorem divsWord_eta (w : Code) :
    w = (w.extractLsb' 13 11 ++ w.extractLsb' 11 2 ++ w.extractLsb' 8 3 ++ w.extractLsb' 0 8 :
      BitVec (11 + 2 + 3 + 8)) := by
  apply BitVec.eq_of_toNat_eq
  rw [divsWord_toNat]
  have := w.isLt
  simp only [BitVec.extractLsb'_toNat, Nat.shiftRight_eq_div_pow]
  omega

theorem divqWord_eta (w : Code) :
    w = (w.extractLsb' 11 13 ++ w.extractLsb' 8 3 ++ w.extractLsb' 0 8 : BitVec (13 + 3 + 8)) := by
  apply BitVec.eq_of_toNat_eq
  rw [divqWord_toNat]
  have := w.isLt
  simp only [BitVec.extractLsb'_toNat, Nat.shiftRight_eq_div_pow]
  omega

/-- The decoder reads a word of the ALU/MAC pattern by that pattern: the fixed bits of DIVS and DIVQ differ. -/
theorem decode_macWord (z : BitVec 1) (g : BitVec 3) (f y : BitVec 2) (x : BitVec 3) (c : Cond) :
    decode (0b00100#5 ++ z ++ g ++ f ++ y ++ x ++ 0#4 ++ c : BitVec (5 + 1 + 3 + 2 + 2 + 3 + 4 + 4)) =
      decodeMac z g f y x c := by
  have hw := macWord_toNat 0b00100#5 z g f y x 0#4 c
  have hf := macWord_fields 0b00100#5 z g f y x 0#4 c
  generalize hq :
    (0b00100#5 ++ z ++ g ++ f ++ y ++ x ++ 0#4 ++ c : BitVec (5 + 1 + 3 + 2 + 2 + 3 + 4 + 4)) = w at hw hf
  change decode (w : Code) = _
  have := z.isLt; have := g.isLt; have := f.isLt; have := y.isLt; have := x.isLt; have := c.isLt
  have h1 : BitVec.extractLsb' 13 11 (w : Code) ≠ 0b01100000000#11 := fun e => by
    have := congrArg BitVec.toNat e
    simp only [BitVec.extractLsb'_toNat, Nat.shiftRight_eq_div_pow, hw] at this
    simp at this
    omega
  have h2 : BitVec.extractLsb' 11 13 (w : Code) ≠ 0b0111000100000#13 := fun e => by
    have := congrArg BitVec.toNat e
    simp only [BitVec.extractLsb'_toNat, Nat.shiftRight_eq_div_pow, hw] at this
    simp at this
    omega
  obtain ⟨e1, e2, e3, e4, e5, e6, e7, e8⟩ := hf
  unfold decode
  rw [if_neg (fun e => h1 e.1), if_neg (fun e => h2 e.1), if_pos ⟨e1, e7⟩, e2, e3, e4, e5, e6, e8]

end Sys2Proof
end

