-- ==== Sys2Proof/Laws/Flags.lean ====
section
/-! SUPPORT. The flag computations: the nine-bit test of MV as a range (R148), and the packed form of ASTAT (R178,
R179) for every layout. -/

namespace Sys2Proof.Machine

/-- MVof is set exactly when the 40-bit value does not fit 32 bits (R148). -/
theorem mvOf_iff (res : Acc) : mvOf res = true ↔ Exceeds32 res.toInt := by
  have hlt := res.isLt
  have htop : (res.extractLsb' 31 9).toNat = res.toNat / 2 ^ 31 := by
    rw [BitVec.extractLsb'_toNat, Nat.shiftRight_eq_div_pow]
    omega
  have hz : res.extractLsb' 31 9 = 0b000000000#9 ↔ res.toNat / 2 ^ 31 = 0 := by
    rw [← BitVec.toNat_inj, htop]; rfl
  have ho : res.extractLsb' 31 9 = 0b111111111#9 ↔ res.toNat / 2 ^ 31 = 511 := by
    rw [← BitVec.toNat_inj, htop]; rfl
  have hmv : mvOf res = true ↔ ¬(res.toNat / 2 ^ 31 = 0 ∨ res.toNat / 2 ^ 31 = 511) := by
    rw [← hz, ← ho]
    simp [mvOf]
  rw [hmv, Exceeds32, BitVec.toInt_eq_toNat_cond]
  split <;> omega

/-! ### The packed form of ASTAT -/

theorem AstatFlag.index_injective {f g : AstatFlag} (h : f.index = g.index) : f = g := by
  cases f <;> cases g <;> first | rfl | exact absurd h (by decide)

/-- No two flags share a bit position, whatever the layout (R28). -/
theorem position_injective (layout : AstatLayout) {f g : AstatFlag}
    (h : layout.position f = layout.position g) : f = g :=
  AstatFlag.index_injective (layout.injective h)

/-- The flag at a flag's position is that flag. -/
theorem flagAt_position (layout : AstatLayout) (f : AstatFlag) :
    flagAt layout (layout.position f) = some f := by
  have key : ∀ g, (layout.position g == layout.position f) = (g == f) := fun g => by
    by_cases h : g = f
    · subst h; simp
    · have hp : layout.position g ≠ layout.position f := fun e => h (position_injective layout e)
      simp [h, hp]
  simp only [flagAt, key]
  cases f <;> rfl

/-- A read of ASTAT shows each flag at its position (R178). -/
theorem packAstat_position (layout : AstatLayout) (a : Astat) (free : Word) (f : AstatFlag) :
    (packAstat layout a free).getLsbD (layout.position f) = a.get f := by
  rw [packAstat, BitVec.getLsbD_ofFnLE]
  simp [flagAt_position]

/-- A write of ASTAT takes each flag from its position (R179). -/
theorem unpackAstat_get (layout : AstatLayout) (v : Word) (f : AstatFlag) :
    (unpackAstat layout v).get f = v.getLsbD (layout.position f) := by
  cases f <;> rfl

/-- What is written is what a read shows, at the position of every flag. -/
theorem pack_unpack_position (layout : AstatLayout) (v free : Word) (f : AstatFlag) :
    (packAstat layout (unpackAstat layout v) free).getLsbD (layout.position f) =
      v.getLsbD (layout.position f) := by
  rw [packAstat_position, unpackAstat_get]

/-! ### The latch -/

/-- A latched AV stays set, and any overflow sets it (R102). -/
@[simp] theorem avAfter_latched (av ov : Bool) : avAfter true av ov = (av || ov) := rfl

/-- Without the latch AV is the overflow indication (R101). -/
@[simp] theorem avAfter_unlatched (av ov : Bool) : avAfter false av ov = ov := rfl

/-- An ALU operation writes none of AS, AQ and MV (R105, R107, R109). -/
@[simp] theorem aluFlags_AS (l : Bool) (o : AluOutcome) (a : Astat) : (aluFlags l o a).AS = a.AS := rfl
@[simp] theorem aluFlags_AQ (l : Bool) (o : AluOutcome) (a : Astat) : (aluFlags l o a).AQ = a.AQ := rfl
@[simp] theorem aluFlags_MV (l : Bool) (o : AluOutcome) (a : Astat) : (aluFlags l o a).MV = a.MV := rfl

end Sys2Proof.Machine
end

