-- ==== Sys2Proof/Laws/Mac.lean ====
section
/-! SUPPORT. The arithmetic of the MAC: the range of the product (R143), the presented product (R146), and the 40-bit
result as a signed number (R147). -/

namespace Sys2Proof.Machine

theorem operandValue_signed (w : Word) : operandValue true w = w.toInt := rfl
theorem operandValue_unsigned (w : Word) : operandValue false w = w.toNat := rfl

/-- Bounds of one operand, read either way. -/
theorem operandValue_bounds (w : Word) :
    (-2 ^ 15 ≤ operandValue true w ∧ operandValue true w ≤ 2 ^ 15 - 1) ∧
    (0 ≤ operandValue false w ∧ operandValue false w ≤ 2 ^ 16 - 1) := by
  have h1 := BitVec.le_toInt w
  have h2 := BitVec.toInt_lt (x := w)
  have h3 := w.isLt
  rw [operandValue_signed, operandValue_unsigned]
  omega

/-- Bounds of a product from bounds of its factors. -/
theorem mul_bounds {x y a b c d : Int} (hx : -a ≤ x ∧ x ≤ b) (hy : -c ≤ y ∧ y ≤ d)
    (ha : 0 ≤ a) (hb : 0 ≤ b) (hc : 0 ≤ c) (hd : 0 ≤ d) :
    -(max (a * d) (b * c)) ≤ x * y ∧ x * y ≤ max (a * c) (b * d) := by
  rcases le_total 0 x with h | h <;> rcases le_total 0 y with k | k
  · have h1 : x * y ≤ b * d := mul_le_mul hx.2 hy.2 k hb
    have h2 : 0 ≤ x * y := mul_nonneg h k
    have h3 : 0 ≤ a * d := mul_nonneg ha hd
    omega
  · have h1 : x * -y ≤ b * c := mul_le_mul hx.2 (by omega) (by omega) hb
    have h2 : 0 ≤ x * -y := mul_nonneg h (by omega)
    have h3 : 0 ≤ a * c := mul_nonneg ha hc
    rw [mul_neg] at h1 h2
    omega
  · have h1 : -x * y ≤ a * d := mul_le_mul (by omega) hy.2 k ha
    have h2 : 0 ≤ -x * y := mul_nonneg (by omega) k
    have h3 : 0 ≤ a * c := mul_nonneg ha hc
    rw [neg_mul] at h1 h2
    omega
  · have h1 : -x * -y ≤ a * c := mul_le_mul (by omega) (by omega) (by omega) ha
    have h2 : 0 ≤ -x * -y := mul_nonneg (by omega) (by omega)
    have h3 : 0 ≤ a * d := mul_nonneg ha hd
    rw [neg_mul_neg] at h1 h2
    omega

/-- The product fits 33 bits signed in every format, 32 bits signed unless both operands are unsigned. -/
theorem macProduct_bounds (f : Fmt) (x y : Word) :
    -2 ^ 31 < macProduct f x y ∧ macProduct f x y ≤ 0xFFFE0001 ∧
    (f ≠ .uu → macProduct f x y < 2 ^ 31) ∧ (f = .uu → 0 ≤ macProduct f x y) := by
  obtain ⟨sx, ux⟩ := operandValue_bounds x
  obtain ⟨sy, uy⟩ := operandValue_bounds y
  cases f <;> simp only [macProduct, xSigned, ySigned]
  · have := mul_bounds (a := 2 ^ 15) (c := 2 ^ 15) sx sy (by decide) (by decide) (by decide) (by decide)
    simp; omega
  · have := mul_bounds (a := 2 ^ 15) (c := 0) sx uy (by decide) (by decide) (by decide) (by decide)
    simp; omega
  · have := mul_bounds (a := 0) (c := 2 ^ 15) ux sy (by decide) (by decide) (by decide) (by decide)
    simp; omega
  · have := mul_bounds (a := 0) (c := 0) ux uy (by decide) (by decide) (by decide) (by decide)
    have := mul_nonneg ux.1 uy.1
    simp; omega

/-- The model's product is the product of the numbers the format says the operands are (R142, R143). -/
theorem macProduct_eq (f : Fmt) (x y : Word) :
    macProduct f x y = (if f = .ss ∨ f = .su then x.toInt else (x.toNat : Int)) *
      (if f = .ss ∨ f = .us then y.toInt else (y.toNat : Int)) := by
  cases f <;> rfl

/-- What the adder receives is the presented product (R146). -/
theorem scaled_eq_presented (e : UuExtension) (i : Bool) (f : Fmt) (x y : Word) :
    macScale i * extendProduct e f (macProduct f x y) = presentedProduct e i f x y := by
  have hb := macProduct_bounds f x y
  have hext : extendProduct e f (macProduct f x y) =
      if f = .uu ∧ e = .sign ∧ 2 ^ 31 ≤ macProduct f x y then macProduct f x y - 2 ^ 32 else macProduct f x y := by
    cases f <;> cases e <;> simp only [extendProduct, reduceCtorEq, false_and, and_false, if_false, true_and]
    have h0 := hb.2.2.2 rfl
    rw [BitVec.toInt_ofInt]
    split
    · rw [Int.bmod_def]; omega
    · rw [Int.bmod_def]; omega
  rw [hext]
  simp only [presentedProduct, ← macProduct_eq]
  cases i <;> simp [macScale]

/-- The presented product lies well inside 40 bits. -/
theorem presentedProduct_bounds (e : UuExtension) (i : Bool) (f : Fmt) (x y : Word) :
    -2 ^ 33 < presentedProduct e i f x y ∧ presentedProduct e i f x y < 2 ^ 34 := by
  have hb := macProduct_bounds f x y
  simp only [presentedProduct, ← macProduct_eq]
  cases i <;> simp only [if_true, Bool.false_eq_true, if_false] <;> split <;> omega

/-- X×Y: the result is the presented product itself (R147). -/
theorem macResult_mul (e : UuExtension) (i : Bool) (f : Fmt) (acc : Acc) (x y : Word) :
    macResult e .mul i f acc x y = BitVec.ofInt 40 (presentedProduct e i f x y) := by
  simp only [macResult, scaled_eq_presented]

theorem macResult_mul_toInt (e : UuExtension) (i : Bool) (f : Fmt) (acc : Acc) (x y : Word) :
    (macResult e .mul i f acc x y).toInt = presentedProduct e i f x y := by
  have hb := presentedProduct_bounds e i f x y
  rw [macResult_mul, BitVec.toInt_ofInt, Int.bmod_def]
  omega

/-- MR+X×Y modulo 2^40 (R147). -/
theorem macResult_add_toInt (e : UuExtension) (i : Bool) (f : Fmt) (acc : Acc) (x y : Word) :
    (macResult e .add i f acc x y).toInt = (acc.toInt + presentedProduct e i f x y).bmod (2 ^ 40) := by
  simp only [macResult, scaled_eq_presented, BitVec.toInt_add, BitVec.toInt_ofInt, Int.add_bmod_bmod]

/-- MR-X×Y modulo 2^40 (R147). -/
theorem macResult_sub_toInt (e : UuExtension) (i : Bool) (f : Fmt) (acc : Acc) (x y : Word) :
    (macResult e .sub i f acc x y).toInt = (acc.toInt - presentedProduct e i f x y).bmod (2 ^ 40) := by
  simp only [macResult, scaled_eq_presented, BitVec.toInt_sub, BitVec.toInt_ofInt, Int.sub_bmod_bmod]

end Sys2Proof.Machine
end

