-- ==== Sys2Proof/Laws/State.lean ====
section
/-! SUPPORT. One lemma for each field of State after each named update, so that no proof unfolds a record update, and
the views `mac` and `alu` after each update. -/

namespace Sys2Proof.Machine

namespace State

/-! ### setAstat -/

@[simp] theorem setAstat_aluPrimary (s : State) (a : Astat) : (s.setAstat a).aluPrimary = s.aluPrimary := rfl
@[simp] theorem setAstat_aluSecondary (s : State) (a : Astat) : (s.setAstat a).aluSecondary = s.aluSecondary := rfl
@[simp] theorem setAstat_macPrimary (s : State) (a : Astat) : (s.setAstat a).macPrimary = s.macPrimary := rfl
@[simp] theorem setAstat_macSecondary (s : State) (a : Astat) : (s.setAstat a).macSecondary = s.macSecondary := rfl
@[simp] theorem setAstat_SR0 (s : State) (a : Astat) : (s.setAstat a).SR0 = s.SR0 := rfl
@[simp] theorem setAstat_SR1 (s : State) (a : Astat) : (s.setAstat a).SR1 = s.SR1 := rfl
@[simp] theorem setAstat_astat (s : State) (a : Astat) : (s.setAstat a).astat = a := rfl
@[simp] theorem setAstat_mstat (s : State) (a : Astat) : (s.setAstat a).mstat = s.mstat := rfl
@[simp] theorem setAstat_pc (s : State) (a : Astat) : (s.setAstat a).pc = s.pc := rfl
@[simp] theorem setAstat_program (s : State) (a : Astat) : (s.setAstat a).program = s.program := rfl
@[simp] theorem setAstat_outputs (s : State) (a : Astat) : (s.setAstat a).outputs = s.outputs := rfl
@[simp] theorem setAstat_draws (s : State) (a : Astat) : (s.setAstat a).draws = s.draws := rfl

/-! ### setMstat -/

@[simp] theorem setMstat_aluPrimary (s : State) (m : Mstat) : (s.setMstat m).aluPrimary = s.aluPrimary := rfl
@[simp] theorem setMstat_aluSecondary (s : State) (m : Mstat) : (s.setMstat m).aluSecondary = s.aluSecondary := rfl
@[simp] theorem setMstat_macPrimary (s : State) (m : Mstat) : (s.setMstat m).macPrimary = s.macPrimary := rfl
@[simp] theorem setMstat_macSecondary (s : State) (m : Mstat) : (s.setMstat m).macSecondary = s.macSecondary := rfl
@[simp] theorem setMstat_SR0 (s : State) (m : Mstat) : (s.setMstat m).SR0 = s.SR0 := rfl
@[simp] theorem setMstat_SR1 (s : State) (m : Mstat) : (s.setMstat m).SR1 = s.SR1 := rfl
@[simp] theorem setMstat_astat (s : State) (m : Mstat) : (s.setMstat m).astat = s.astat := rfl
@[simp] theorem setMstat_mstat (s : State) (m : Mstat) : (s.setMstat m).mstat = m := rfl
@[simp] theorem setMstat_pc (s : State) (m : Mstat) : (s.setMstat m).pc = s.pc := rfl
@[simp] theorem setMstat_program (s : State) (m : Mstat) : (s.setMstat m).program = s.program := rfl
@[simp] theorem setMstat_outputs (s : State) (m : Mstat) : (s.setMstat m).outputs = s.outputs := rfl
@[simp] theorem setMstat_draws (s : State) (m : Mstat) : (s.setMstat m).draws = s.draws := rfl

/-! ### advance -/

@[simp] theorem advance_aluPrimary (s : State) : s.advance.aluPrimary = s.aluPrimary := rfl
@[simp] theorem advance_aluSecondary (s : State) : s.advance.aluSecondary = s.aluSecondary := rfl
@[simp] theorem advance_macPrimary (s : State) : s.advance.macPrimary = s.macPrimary := rfl
@[simp] theorem advance_macSecondary (s : State) : s.advance.macSecondary = s.macSecondary := rfl
@[simp] theorem advance_SR0 (s : State) : s.advance.SR0 = s.SR0 := rfl
@[simp] theorem advance_SR1 (s : State) : s.advance.SR1 = s.SR1 := rfl
@[simp] theorem advance_astat (s : State) : s.advance.astat = s.astat := rfl
@[simp] theorem advance_mstat (s : State) : s.advance.mstat = s.mstat := rfl
@[simp] theorem advance_pc (s : State) : s.advance.pc = s.pc + 1 := rfl
@[simp] theorem advance_program (s : State) : s.advance.program = s.program := rfl
@[simp] theorem advance_outputs (s : State) : s.advance.outputs = s.outputs := rfl
@[simp] theorem advance_draws (s : State) : s.advance.draws = s.draws := rfl

/-! ### emit -/

@[simp] theorem emit_aluPrimary (s : State) (w : Word) : (s.emit w).aluPrimary = s.aluPrimary := rfl
@[simp] theorem emit_aluSecondary (s : State) (w : Word) : (s.emit w).aluSecondary = s.aluSecondary := rfl
@[simp] theorem emit_macPrimary (s : State) (w : Word) : (s.emit w).macPrimary = s.macPrimary := rfl
@[simp] theorem emit_macSecondary (s : State) (w : Word) : (s.emit w).macSecondary = s.macSecondary := rfl
@[simp] theorem emit_SR0 (s : State) (w : Word) : (s.emit w).SR0 = s.SR0 := rfl
@[simp] theorem emit_SR1 (s : State) (w : Word) : (s.emit w).SR1 = s.SR1 := rfl
@[simp] theorem emit_astat (s : State) (w : Word) : (s.emit w).astat = s.astat := rfl
@[simp] theorem emit_mstat (s : State) (w : Word) : (s.emit w).mstat = s.mstat := rfl
@[simp] theorem emit_pc (s : State) (w : Word) : (s.emit w).pc = s.pc := rfl
@[simp] theorem emit_program (s : State) (w : Word) : (s.emit w).program = s.program := rfl
@[simp] theorem emit_outputs (s : State) (w : Word) : (s.emit w).outputs = s.outputs ++ [w] := rfl
@[simp] theorem emit_draws (s : State) (w : Word) : (s.emit w).draws = s.draws := rfl

/-! ### takeDraw -/

@[simp] theorem takeDraw_aluPrimary (s : State) : s.takeDraw.aluPrimary = s.aluPrimary := rfl
@[simp] theorem takeDraw_aluSecondary (s : State) : s.takeDraw.aluSecondary = s.aluSecondary := rfl
@[simp] theorem takeDraw_macPrimary (s : State) : s.takeDraw.macPrimary = s.macPrimary := rfl
@[simp] theorem takeDraw_macSecondary (s : State) : s.takeDraw.macSecondary = s.macSecondary := rfl
@[simp] theorem takeDraw_SR0 (s : State) : s.takeDraw.SR0 = s.SR0 := rfl
@[simp] theorem takeDraw_SR1 (s : State) : s.takeDraw.SR1 = s.SR1 := rfl
@[simp] theorem takeDraw_astat (s : State) : s.takeDraw.astat = s.astat := rfl
@[simp] theorem takeDraw_mstat (s : State) : s.takeDraw.mstat = s.mstat := rfl
@[simp] theorem takeDraw_pc (s : State) : s.takeDraw.pc = s.pc := rfl
@[simp] theorem takeDraw_program (s : State) : s.takeDraw.program = s.program := rfl
@[simp] theorem takeDraw_outputs (s : State) : s.takeDraw.outputs = s.outputs := rfl
@[simp] theorem takeDraw_draws (s : State) : s.takeDraw.draws = s.draws + 1 := rfl

/-! ### setMac and setAluIn: the copy in use is written, the other kept (R33, R34) -/

@[simp] theorem setMac_aluPrimary (s : State) (m : MacRegs) : (s.setMac m).aluPrimary = s.aluPrimary := by
  unfold setMac; split <;> simp [*]
@[simp] theorem setMac_aluSecondary (s : State) (m : MacRegs) : (s.setMac m).aluSecondary = s.aluSecondary := by
  unfold setMac; split <;> simp [*]
@[simp] theorem setMac_macPrimary (s : State) (m : MacRegs) : (s.setMac m).macPrimary = if s.mstat.bank then s.macPrimary else m := by
  unfold setMac; split <;> simp [*]
@[simp] theorem setMac_macSecondary (s : State) (m : MacRegs) : (s.setMac m).macSecondary = if s.mstat.bank then m else s.macSecondary := by
  unfold setMac; split <;> simp [*]
@[simp] theorem setMac_SR0 (s : State) (m : MacRegs) : (s.setMac m).SR0 = s.SR0 := by
  unfold setMac; split <;> simp [*]
@[simp] theorem setMac_SR1 (s : State) (m : MacRegs) : (s.setMac m).SR1 = s.SR1 := by
  unfold setMac; split <;> simp [*]
@[simp] theorem setMac_astat (s : State) (m : MacRegs) : (s.setMac m).astat = s.astat := by
  unfold setMac; split <;> simp [*]
@[simp] theorem setMac_mstat (s : State) (m : MacRegs) : (s.setMac m).mstat = s.mstat := by
  unfold setMac; split <;> simp [*]
@[simp] theorem setMac_pc (s : State) (m : MacRegs) : (s.setMac m).pc = s.pc := by
  unfold setMac; split <;> simp [*]
@[simp] theorem setMac_program (s : State) (m : MacRegs) : (s.setMac m).program = s.program := by
  unfold setMac; split <;> simp [*]
@[simp] theorem setMac_outputs (s : State) (m : MacRegs) : (s.setMac m).outputs = s.outputs := by
  unfold setMac; split <;> simp [*]
@[simp] theorem setMac_draws (s : State) (m : MacRegs) : (s.setMac m).draws = s.draws := by
  unfold setMac; split <;> simp [*]

@[simp] theorem setAluIn_aluPrimary (s : State) (banked : Bool) (a : AluRegs) :
    (s.setAluIn banked a).aluPrimary = if s.mstat.bank && banked then s.aluPrimary else a := by
  unfold setAluIn; split <;> simp [*]
@[simp] theorem setAluIn_aluSecondary (s : State) (banked : Bool) (a : AluRegs) :
    (s.setAluIn banked a).aluSecondary = if s.mstat.bank && banked then a else s.aluSecondary := by
  unfold setAluIn; split <;> simp [*]
@[simp] theorem setAluIn_macPrimary (s : State) (banked : Bool) (a : AluRegs) :
    (s.setAluIn banked a).macPrimary = s.macPrimary := by
  unfold setAluIn; split <;> simp [*]
@[simp] theorem setAluIn_macSecondary (s : State) (banked : Bool) (a : AluRegs) :
    (s.setAluIn banked a).macSecondary = s.macSecondary := by
  unfold setAluIn; split <;> simp [*]
@[simp] theorem setAluIn_SR0 (s : State) (banked : Bool) (a : AluRegs) :
    (s.setAluIn banked a).SR0 = s.SR0 := by
  unfold setAluIn; split <;> simp [*]
@[simp] theorem setAluIn_SR1 (s : State) (banked : Bool) (a : AluRegs) :
    (s.setAluIn banked a).SR1 = s.SR1 := by
  unfold setAluIn; split <;> simp [*]
@[simp] theorem setAluIn_astat (s : State) (banked : Bool) (a : AluRegs) :
    (s.setAluIn banked a).astat = s.astat := by
  unfold setAluIn; split <;> simp [*]
@[simp] theorem setAluIn_mstat (s : State) (banked : Bool) (a : AluRegs) :
    (s.setAluIn banked a).mstat = s.mstat := by
  unfold setAluIn; split <;> simp [*]
@[simp] theorem setAluIn_pc (s : State) (banked : Bool) (a : AluRegs) :
    (s.setAluIn banked a).pc = s.pc := by
  unfold setAluIn; split <;> simp [*]
@[simp] theorem setAluIn_program (s : State) (banked : Bool) (a : AluRegs) :
    (s.setAluIn banked a).program = s.program := by
  unfold setAluIn; split <;> simp [*]
@[simp] theorem setAluIn_outputs (s : State) (banked : Bool) (a : AluRegs) :
    (s.setAluIn banked a).outputs = s.outputs := by
  unfold setAluIn; split <;> simp [*]
@[simp] theorem setAluIn_draws (s : State) (banked : Bool) (a : AluRegs) :
    (s.setAluIn banked a).draws = s.draws := by
  unfold setAluIn; split <;> simp [*]

/-! ### setAlu: setAluIn at the parameter ALU_REGS_BANKED -/

@[simp] theorem setAlu_aluPrimary (s : State) (a : AluRegs) :
    (s.setAlu a).aluPrimary = if s.mstat.bank && Config.aluRegsBanked then s.aluPrimary else a := by
  simp [setAlu]
@[simp] theorem setAlu_aluSecondary (s : State) (a : AluRegs) :
    (s.setAlu a).aluSecondary = if s.mstat.bank && Config.aluRegsBanked then a else s.aluSecondary := by
  simp [setAlu]
@[simp] theorem setAlu_macPrimary (s : State) (a : AluRegs) :
    (s.setAlu a).macPrimary = s.macPrimary := by
  simp [setAlu]
@[simp] theorem setAlu_macSecondary (s : State) (a : AluRegs) :
    (s.setAlu a).macSecondary = s.macSecondary := by
  simp [setAlu]
@[simp] theorem setAlu_SR0 (s : State) (a : AluRegs) :
    (s.setAlu a).SR0 = s.SR0 := by
  simp [setAlu]
@[simp] theorem setAlu_SR1 (s : State) (a : AluRegs) :
    (s.setAlu a).SR1 = s.SR1 := by
  simp [setAlu]
@[simp] theorem setAlu_astat (s : State) (a : AluRegs) :
    (s.setAlu a).astat = s.astat := by
  simp [setAlu]
@[simp] theorem setAlu_mstat (s : State) (a : AluRegs) :
    (s.setAlu a).mstat = s.mstat := by
  simp [setAlu]
@[simp] theorem setAlu_pc (s : State) (a : AluRegs) :
    (s.setAlu a).pc = s.pc := by
  simp [setAlu]
@[simp] theorem setAlu_program (s : State) (a : AluRegs) :
    (s.setAlu a).program = s.program := by
  simp [setAlu]
@[simp] theorem setAlu_outputs (s : State) (a : AluRegs) :
    (s.setAlu a).outputs = s.outputs := by
  simp [setAlu]
@[simp] theorem setAlu_draws (s : State) (a : AluRegs) :
    (s.setAlu a).draws = s.draws := by
  simp [setAlu]

/-! ### setMR: setMac of the MR field -/

@[simp] theorem setMR_aluPrimary (s : State) (m : Acc) : (s.setMR m).aluPrimary = s.aluPrimary := by
  simp [setMR]
@[simp] theorem setMR_aluSecondary (s : State) (m : Acc) : (s.setMR m).aluSecondary = s.aluSecondary := by
  simp [setMR]
@[simp] theorem setMR_SR0 (s : State) (m : Acc) : (s.setMR m).SR0 = s.SR0 := by
  simp [setMR]
@[simp] theorem setMR_SR1 (s : State) (m : Acc) : (s.setMR m).SR1 = s.SR1 := by
  simp [setMR]
@[simp] theorem setMR_astat (s : State) (m : Acc) : (s.setMR m).astat = s.astat := by
  simp [setMR]
@[simp] theorem setMR_mstat (s : State) (m : Acc) : (s.setMR m).mstat = s.mstat := by
  simp [setMR]
@[simp] theorem setMR_pc (s : State) (m : Acc) : (s.setMR m).pc = s.pc := by
  simp [setMR]
@[simp] theorem setMR_program (s : State) (m : Acc) : (s.setMR m).program = s.program := by
  simp [setMR]
@[simp] theorem setMR_outputs (s : State) (m : Acc) : (s.setMR m).outputs = s.outputs := by
  simp [setMR]
@[simp] theorem setMR_draws (s : State) (m : Acc) : (s.setMR m).draws = s.draws := by
  simp [setMR]

/-! ### The views -/

@[simp] theorem setMac_mac (s : State) (m : MacRegs) : (s.setMac m).mac = m := by
  unfold mac; simp; split <;> rfl
@[simp] theorem setMac_alu (s : State) (m : MacRegs) : (s.setMac m).alu = s.alu := by
  simp [alu, aluIn]
@[simp] theorem setAlu_alu (s : State) (a : AluRegs) : (s.setAlu a).alu = a := by
  unfold alu aluIn; simp; split <;> simp_all
@[simp] theorem setAlu_mac (s : State) (a : AluRegs) : (s.setAlu a).mac = s.mac := by
  simp [mac]
@[simp] theorem setMR_mac (s : State) (m : Acc) : (s.setMR m).mac = { s.mac with MR := m } := by
  simp [setMR]
@[simp] theorem setMR_alu (s : State) (m : Acc) : (s.setMR m).alu = s.alu := by
  simp [setMR]
@[simp] theorem setMstat_mac_eq (s : State) (m : Mstat) :
    (s.setMstat m).mac = if m.bank then s.macSecondary else s.macPrimary := rfl
@[simp] theorem setAstat_mac (s : State) (a : Astat) : (s.setAstat a).mac = s.mac := rfl
@[simp] theorem setAstat_alu (s : State) (a : Astat) : (s.setAstat a).alu = s.alu := rfl
@[simp] theorem advance_mac (s : State) : s.advance.mac = s.mac := rfl
@[simp] theorem advance_alu (s : State) : s.advance.alu = s.alu := rfl
@[simp] theorem emit_mac (s : State) (w : Word) : (s.emit w).mac = s.mac := rfl
@[simp] theorem emit_alu (s : State) (w : Word) : (s.emit w).alu = s.alu := rfl
@[simp] theorem takeDraw_mac (s : State) : s.takeDraw.mac = s.mac := rfl
@[simp] theorem takeDraw_alu (s : State) : s.takeDraw.alu = s.alu := rfl

/-! ### A record update of the fields no view depends on -/

@[simp] theorem mk_mac (s : State) (a : Astat) (pc draws : Nat) (p : List Slot) (o : List Word) :
    State.mac { s with astat := a, pc := pc, program := p, outputs := o, draws := draws } = s.mac := rfl
@[simp] theorem mk_alu (s : State) (a : Astat) (pc draws : Nat) (p : List Slot) (o : List Word) :
    State.alu { s with astat := a, pc := pc, program := p, outputs := o, draws := draws } = s.alu := rfl

/-- Writing back what the copy in use holds changes nothing. -/
@[simp] theorem setMac_self (s : State) : s.setMac s.mac = s := by
  unfold setMac mac; split <;> rfl

/-- Writing back what the copy in use holds changes nothing. -/
@[simp] theorem setAlu_self (s : State) : s.setAlu s.alu = s := by
  unfold setAlu alu setAluIn aluIn; split <;> rfl

end State

end Sys2Proof.Machine
end

