-- ==== Sys2Proof/Laws/Ops.lean ====
section
/-! SUPPORT. The sections of MR (R24), the shift of the division primitives (R123, R126) and the operand forms (R172),
each said once with numbers. -/

namespace Sys2Proof.Machine

/-! ### The sections of MR -/

theorem mr0_toNat (m : Acc) : (mr0 m).toNat = m.toNat % 2 ^ 16 := by
  simp [mr0, BitVec.extractLsb'_toNat]

theorem mr1_toNat (m : Acc) : (mr1 m).toNat = m.toNat / 2 ^ 16 % 2 ^ 16 := by
  simp [mr1, BitVec.extractLsb'_toNat, Nat.shiftRight_eq_div_pow]

theorem mr2_toNat (m : Acc) : (mr2 m).toNat = m.toNat / 2 ^ 32 := by
  have := m.isLt
  simp [mr2, BitVec.extractLsb'_toNat, Nat.shiftRight_eq_div_pow]
  omega

theorem sections_toNat (a : BitVec 8) (b c : Word) :
    (a ++ b ++ c : BitVec (8 + 16 + 16)).toNat = a.toNat * 2 ^ 32 + b.toNat * 2 ^ 16 + c.toNat := by
  have := b.isLt
  have := c.isLt
  simp only [BitVec.toNat_append]
  rw [← Nat.shiftLeft_add_eq_or_of_lt (by omega), ← Nat.shiftLeft_add_eq_or_of_lt (by omega)]
  simp only [Nat.shiftLeft_eq]
  omega

theorem setMr0_toNat (m : Acc) (v : Word) : (setMr0 m v).toNat = m.toNat / 2 ^ 16 * 2 ^ 16 + v.toNat := by
  have := m.isLt
  rw [setMr0, sections_toNat, mr1_toNat, mr2_toNat]
  omega

theorem setMr1_toNat (m : Acc) (v : Word) :
    (setMr1 m v).toNat = m.toNat / 2 ^ 32 * 2 ^ 32 + v.toNat * 2 ^ 16 + m.toNat % 2 ^ 16 := by
  rw [setMr1, sections_toNat, mr0_toNat, mr2_toNat]

theorem setMr2_toNat (m : Acc) (v : BitVec 8) : (setMr2 m v).toNat = v.toNat * 2 ^ 32 + m.toNat % 2 ^ 32 := by
  rw [setMr2, sections_toNat, mr1_toNat, mr0_toNat]
  omega

/-- Every section reads back what was written to it. -/
@[simp] theorem mr0_setMr0 (m : Acc) (v : Word) : mr0 (setMr0 m v) = v := by
  apply BitVec.eq_of_toNat_eq
  rw [mr0_toNat, setMr0_toNat]
  have := v.isLt
  omega

@[simp] theorem mr1_setMr1 (m : Acc) (v : Word) : mr1 (setMr1 m v) = v := by
  apply BitVec.eq_of_toNat_eq
  rw [mr1_toNat, setMr1_toNat]
  have := v.isLt
  omega

@[simp] theorem mr2_setMr2 (m : Acc) (v : BitVec 8) : mr2 (setMr2 m v) = v := by
  apply BitVec.eq_of_toNat_eq
  rw [mr2_toNat, setMr2_toNat]
  omega

@[simp] theorem mr1_setMr2 (m : Acc) (v : BitVec 8) : mr1 (setMr2 m v) = mr1 m := by
  apply BitVec.eq_of_toNat_eq
  rw [mr1_toNat, mr1_toNat, setMr2_toNat]
  omega

@[simp] theorem mr1_loadMr1 (e : Bool) (m : Acc) (v : Word) : mr1 (loadMr1 e m v) = v := by
  unfold loadMr1
  split <;> simp

/-- A section is the same bits of MR as the numeric form of `busValue` takes. -/
theorem mr0_eq (m : Acc) : mr0 m = BitVec.ofNat 16 m.toNat :=
  BitVec.eq_of_toNat_eq (by rw [mr0_toNat]; simp)

theorem mr1_eq (m : Acc) : mr1 m = BitVec.ofNat 16 (m.toNat / 2 ^ 16) :=
  BitVec.eq_of_toNat_eq (by rw [mr1_toNat]; simp)

/-- The sign-extended MR2 is the signed value of MR divided by 2^32, rounded down (R172). -/
theorem xbusMr2_toInt (m : Acc) : (xbusMr2 m).toInt = m.toInt / 2 ^ 32 := by
  have hm := m.isLt
  have h : (xbusMr2 m).toInt = (mr2 m).toInt := by
    rw [xbusMr2, BitVec.toInt_signExtend_of_le (by omega)]
  rw [h, BitVec.toInt_eq_toNat_cond, BitVec.toInt_eq_toNat_cond, mr2_toNat]
  split <;> split <;> omega

theorem xbusMr2_eq (m : Acc) : xbusMr2 m = BitVec.ofInt 16 (m.toInt / 2 ^ 32) := by
  rw [← xbusMr2_toInt, BitVec.ofInt_toInt]

/-! ### The shift of the division primitives -/

theorem shiftIn_toNat (v : Word) (b : Bool) : (shiftIn v b).toNat = 2 * v.toNat % 2 ^ 16 + b.toNat := by
  have hb : b.toNat < 2 := Bool.toNat_lt b
  simp only [shiftIn, BitVec.toNat_append, BitVec.toNat_ofBool, BitVec.extractLsb'_toNat]
  rw [← Nat.shiftLeft_add_eq_or_of_lt (by omega), Nat.shiftLeft_eq]
  simp
  omega

/-- Two registers shifted as one: the upper takes the lower's bit 15, the lower takes b. -/
theorem shiftIn_pair (hi lo : Word) (b : Bool) :
    (shiftIn hi lo.msb).toNat * 2 ^ 16 + (shiftIn lo b).toNat =
      2 * (hi.toNat * 2 ^ 16 + lo.toNat) % 2 ^ 32 + b.toNat := by
  have := hi.isLt
  have := lo.isLt
  rw [shiftIn_toNat, shiftIn_toNat, BitVec.msb_eq_decide]
  by_cases h : 2 ^ (16 - 1) ≤ lo.toNat <;> simp only [h, decide_true, decide_false, Bool.toNat_true, Bool.toNat_false] <;>
    omega

/-! ### The operand forms, by the register they name -/

theorem readAluXop_eq (x : AluXop) (s : State) : readAluXop x s = busValue x.reg s := by
  cases x <;> first | rfl | exact mr0_eq _ | exact mr1_eq _ | exact xbusMr2_eq _

theorem readMacXop_eq (x : MacXop) (s : State) : readMacXop x s = busValue x.reg s := by
  cases x <;> first | rfl | exact mr0_eq _ | exact mr1_eq _ | exact xbusMr2_eq _

theorem readAluYop_eq (y : AluYop) (s : State) : readAluYop y s = busValue y.reg s := by
  cases y <;> rfl

theorem readDivsYop_eq (y : DivsYop) (s : State) :
    readDivsYop y s = if y.admitted then some (busValue y.reg s) else none := by
  cases y <;> rfl

theorem readMacYop_eq (y : MacYop) (s : State) :
    readMacYop y s = if y.admitted then some (busValue y.reg s) else none := by
  cases y <;> rfl

/-- The DMD read paths are those of R171, and what a register drives is its bus value. -/
theorem dmdRead_eq (r : Reg) (s : State) :
    dmdRead r s = if r.dmdReadable then some (busValue r s) else none := by
  cases r <;> simp [dmdRead, Reg.dmdReadable, busValue, mr0_eq, mr1_eq, xbusMr2_eq]

/-- A bus write has a path exactly to the registers R171 says are writable. -/
theorem dmdWrite_isSome (r : Reg) (v : Word) (s : State) : (dmdWrite r v s).isSome = r.dmdWritable := by
  cases r <;> rfl

/-- What a bus write can change: the ALU registers or the MAC registers in use, nothing else. -/
theorem dmdWrite_cases {r : Reg} {v : Word} {s t : State} (h : dmdWrite r v s = some t) :
    (∃ a, t = s.setAlu a ∧ a.AF = s.alu.AF) ∨ (∃ m, t = s.setMac m ∧ m.MF = s.mac.MF) := by
  cases r <;> simp only [dmdWrite, reduceCtorEq, Option.some.injEq] at h <;> subst h <;>
    first
    | exact .inl ⟨_, rfl, rfl⟩
    | exact .inr ⟨_, rfl, rfl⟩

theorem pmdRead_isSome (r : Reg) (s : State) : (pmdRead r s).isSome = r.onPmd := by
  cases r <;> rfl

theorem pmdWrite_isSome (r : Reg) (v : Word) (s : State) : (pmdWrite r v s).isSome = r.onPmd := by
  cases r <;> rfl

/-- What a PMD write can change: the MAC registers in use, nothing else. -/
theorem pmdWrite_cases {r : Reg} {v : Word} {s t : State} (h : pmdWrite r v s = some t) :
    ∃ m, t = s.setMac m ∧ m.MF = s.mac.MF := by
  cases r <;> simp only [pmdWrite, reduceCtorEq, Option.some.injEq] at h <;> subst h <;> exact ⟨_, rfl, rfl⟩

theorem writeMstatBit_isSome (bit : Nat) (value : Bool) (m : Mstat) :
    (writeMstatBit bit value m).isSome = mstatBits.contains bit := by
  unfold writeMstatBit
  split <;> simp_all [mstatBits]

/-! ### The program -/

/-- What a load makes of a word: the operation it decodes to, or the name it is rejected by. -/
theorem Slot.ofWord_instr {w : Code} {i : Instr} (h : decode w = .instr i) : Slot.ofWord w = .operation i := by
  simp [Slot.ofWord, h]

theorem Slot.ofWord_rejected {w : Code} {why : Rejection} (h : decode w = .rejected why) :
    Slot.ofWord w = .rejected why := by
  simp [Slot.ofWord, h]

/-- A place of the program after `placeAt`: the place itself holds the new content, the places the program already
had keep theirs. -/
theorem getElem?_placeAt_self (c : Slot) (n : Nat) (p : List Slot) : (placeAt c n p)[n]? = some c := by
  fun_induction placeAt c n p <;> simp_all

theorem getElem?_placeAt_other (c : Slot) (n k : Nat) (p : List Slot) (hk : k ≠ n) (h : k < p.length) :
    (placeAt c n p)[k]? = p[k]? := by
  fun_induction placeAt c n p generalizing k with
  | case1 => simp at h
  | case2 x rest => cases k <;> simp_all
  | case3 n ih => simp at h
  | case4 n x rest ih =>
    cases k with
    | zero => simp
    | succ k => simpa using ih k (by omega) (by simpa using h)

end Sys2Proof.Machine
end

