-- ==== Sys2Proof/Laws/Meanings.lean ====
section
/-! SUPPORT. What each meaning can do, said once: the shape of the next state of an operation that completes, and
where the shared operations complete. -/

namespace Sys2Proof.Machine

/-! ### Next states -/

theorem execDivs_next {y : DivsYop} {x : AluXop} {s t : State} (h : execDivs y x s = .next t) :
    ∃ af ay0 aq, t = (writeDivide af ay0 aq s).advance := by
  unfold execDivs at h
  split at h
  · cases h
  · cases h; exact ⟨_, _, _, rfl⟩

theorem execDivq_next {x : AluXop} {s t : State} (h : execDivq x s = .next t) :
    ∃ af ay0 aq, t = (writeDivide af ay0 aq s).advance := by
  cases h; exact ⟨_, _, _, rfl⟩

theorem macCore_next {g : MacFunc} {r : Refusal} {d : MacDest} {x : MacXop} {y : MacYop} {f : Fmt} {c : Cond}
    {s t : State} (h : macCore g r d x y f c s = .next t) : ∃ res, t = (writeResult d res s).advance := by
  unfold macCore at h
  split at h
  · split at h
    · cases h
    · cases h; exact ⟨_, rfl⟩
  · cases h

theorem execMrclr_next {c : Cond} {s t : State} (h : execMrclr c s = .next t) :
    t = (writeResultMr 0 s).advance := by
  unfold execMrclr at h
  split at h <;> cases h
  rfl

theorem finishRead_next {w : Option Word} {s t : State} (h : finishRead w s = .next t) :
    ∃ v, w = some v ∧ t = (s.emit v).advance := by
  unfold finishRead at h
  split at h <;> cases h
  exact ⟨_, rfl, rfl⟩

theorem finishWrite_next {u : Option State} {t : State} (h : finishWrite u = .next t) :
    ∃ v, u = some v ∧ t = v.advance := by
  unfold finishWrite at h
  split at h <;> cases h
  exact ⟨_, rfl, rfl⟩

theorem execBusWrite_next {r : Reg} {v : Word} {s t : State} (h : execBusWrite r v s = .next t) :
    (∃ a, t = (s.setAlu a).advance ∧ a.AF = s.alu.AF) ∨ (∃ m, t = (s.setMac m).advance ∧ m.MF = s.mac.MF) := by
  obtain ⟨u, hu, rfl⟩ := finishWrite_next h
  obtain ⟨a, rfl, ha⟩ | ⟨m, rfl, hm⟩ := dmdWrite_cases hu
  · exact .inl ⟨a, rfl, ha⟩
  · exact .inr ⟨m, rfl, hm⟩

theorem execPmdWrite_next {r : Reg} {v : Word} {s t : State} (h : execPmdWrite r v s = .next t) :
    ∃ m, t = (s.setMac m).advance ∧ m.MF = s.mac.MF := by
  obtain ⟨u, hu, rfl⟩ := finishWrite_next h
  obtain ⟨m, rfl, hm⟩ := pmdWrite_cases hu
  exact ⟨m, rfl, hm⟩

theorem execSetMode_next {bit : Nat} {value : Bool} {s t : State} (h : execSetMode bit value s = .next t) :
    ∃ m, t = (s.setMstat m).advance := by
  unfold execSetMode at h
  split at h <;> cases h
  exact ⟨_, rfl⟩

/-- What an operation that completes can do, said once for all of them: each case names the shared operation that made
the next state and the operations it stands for. -/
theorem exec_next_cases {i : Instr} {s t : State} (h : exec i s = .next t) :
    (∃ af ay0 aq, t = (writeDivide af ay0 aq s).advance ∧ ((∃ y x, i = .divs y x) ∨ ∃ x, i = .divq x)) ∨
    (∃ d res, t = (writeResult d res s).advance ∧
      ((∃ x y f c, i = .mul d x y f c ∨ i = .macadd d x y f c ∨ i = .macsub d x y f c) ∨
        (d = .mr ∧ ∃ c, i = .mrclr c))) ∨
    (∃ w, t = (s.emit w).advance) ∨
    (∃ w, t = (s.emit w).takeDraw.advance) ∨
    (∃ a, t = (s.setAlu a).advance ∧ a.AF = s.alu.AF) ∨
    (∃ m, t = (s.setMac m).advance ∧ m.MF = s.mac.MF) ∨
    (∃ a v, t = (s.setAstat a).advance ∧ i = .busWriteAstat v) ∨
    (∃ m b v, t = (s.setMstat m).advance ∧ i = .setMode b v) ∨
    (∃ f d x y o, t = (writeAlu o d s).advance ∧ i = .aluop f d x y) := by
  cases i with
  | divs y x =>
    obtain ⟨af, ay0, aq, rfl⟩ := execDivs_next h
    exact .inl ⟨af, ay0, aq, rfl, .inl ⟨y, x, rfl⟩⟩
  | divq x =>
    obtain ⟨af, ay0, aq, rfl⟩ := execDivq_next h
    exact .inl ⟨af, ay0, aq, rfl, .inr ⟨x, rfl⟩⟩
  | mul d x y f c =>
    obtain ⟨res, rfl⟩ := macCore_next h
    exact .inr (.inl ⟨d, res, rfl, .inl ⟨x, y, f, c, .inl rfl⟩⟩)
  | macadd d x y f c =>
    obtain ⟨res, rfl⟩ := macCore_next h
    exact .inr (.inl ⟨d, res, rfl, .inl ⟨x, y, f, c, .inr (.inl rfl)⟩⟩)
  | macsub d x y f c =>
    obtain ⟨res, rfl⟩ := macCore_next h
    exact .inr (.inl ⟨d, res, rfl, .inl ⟨x, y, f, c, .inr (.inr rfl)⟩⟩)
  | mrclr c => exact .inr (.inl ⟨.mr, 0, execMrclr_next h, .inr ⟨rfl, c, rfl⟩⟩)
  | busRead r =>
    obtain ⟨w, -, rfl⟩ := finishRead_next h
    exact .inr (.inr (.inl ⟨w, rfl⟩))
  | pmdRead r =>
    obtain ⟨w, -, rfl⟩ := finishRead_next h
    exact .inr (.inr (.inl ⟨w, rfl⟩))
  | busReadAstat => cases h; exact .inr (.inr (.inr (.inl ⟨_, rfl⟩)))
  | busWrite r v =>
    rcases execBusWrite_next h with h | h
    · exact .inr (.inr (.inr (.inr (.inl h))))
    · exact .inr (.inr (.inr (.inr (.inr (.inl h)))))
  | busWriteMr2 v => cases h; exact .inr (.inr (.inr (.inr (.inr (.inl ⟨_, rfl, rfl⟩)))))
  | pmdWrite r v => exact .inr (.inr (.inr (.inr (.inr (.inl (execPmdWrite_next h))))))
  | busWriteAstat v => cases h; exact .inr (.inr (.inr (.inr (.inr (.inr (.inl ⟨_, v, rfl, rfl⟩))))))
  | setMode b v =>
    obtain ⟨m, rfl⟩ := execSetMode_next h
    exact .inr (.inr (.inr (.inr (.inr (.inr (.inr (.inl ⟨m, b, v, rfl, rfl⟩)))))))
  | aluop f d x y =>
    cases h
    exact .inr (.inr (.inr (.inr (.inr (.inr (.inr (.inr ⟨f, d, x, y, _, rfl, rfl⟩)))))))
  | abs => cases h

/-! ### Where the shared operations complete -/

theorem macCore_admitted (g : MacFunc) (r : Refusal) (d : MacDest) (x : MacXop) {y : MacYop} (f : Fmt) (s : State)
    (hy : y.admitted = true) :
    macCore g r d x y f Cond.always s =
      .next (writeResult d (macResult Config.macUuExtension g s.mstat.integer f s.mac.MR (busValue x.reg s)
        (busValue y.reg s)) s).advance := by
  simp [macCore, readMacYop_eq, readMacXop_eq, hy]

theorem execDivs_admitted {y : DivsYop} (x : AluXop) (s : State) (hy : y.admitted = true) :
    execDivs y x s =
      .next (writeDivide (shiftIn (busValue y.reg s) s.alu.AY0.msb)
        (shiftIn s.alu.AY0 ((busValue x.reg s).msb ^^ (busValue y.reg s).msb))
        ((busValue x.reg s).msb ^^ (busValue y.reg s).msb) s).advance := by
  simp [execDivs, readDivsYop_eq, readAluXop_eq, hy]

/-- A step that answers a next state executed the operation the place at pc holds. -/
theorem step_next {s t : State} (h : step s = .next t) :
    ∃ i, s.fetch = some (.operation i) ∧ exec i s = .next t := by
  unfold step at h
  split at h
  · cases h
  · exact ⟨_, by assumption, h⟩
  · cases h

/-- A fetch finds something only below the program's length. -/
theorem fetch_lt {s : State} {c : Slot} (h : s.fetch = some c) : s.pc < s.program.length := by
  by_contra hn
  simp [State.fetch, List.getElem?_eq_none (Nat.le_of_not_lt hn)] at h

end Sys2Proof.Machine
end

