-- ==== Sys2Proof/Laws/PerInstr.lean ====
section
/-! SUPPORT. The family PatternedRows (LAWS.json): an operation has a word exactly when its row of
spec/opcode_table.json has a pattern (30_encoding.md rules R80, R89), one lemma for each constructor. -/

/-- The encoder writes a word for an operation exactly when its row has a pattern. -/
def Sys2Proof.Laws.PatternedRows.Statement (i : Sys2Proof.Instr) : Prop :=
  (Sys2Proof.encode i).isSome = i.hasPattern

namespace Sys2Proof.Laws.PatternedRows

theorem divs (yop : DivsYop) (xop : AluXop) : Statement (.divs yop xop) := rfl
theorem divq (xop : AluXop) : Statement (.divq xop) := rfl
theorem mul (dest : MacDest) (xop : MacXop) (yop : MacYop) (fmt : Fmt) (cond : Cond) :
    Statement (.mul dest xop yop fmt cond) := rfl
theorem macadd (dest : MacDest) (xop : MacXop) (yop : MacYop) (fmt : Fmt) (cond : Cond) :
    Statement (.macadd dest xop yop fmt cond) := rfl
theorem macsub (dest : MacDest) (xop : MacXop) (yop : MacYop) (fmt : Fmt) (cond : Cond) :
    Statement (.macsub dest xop yop fmt cond) := rfl
theorem mrclr (cond : Cond) : Statement (.mrclr cond) := rfl
theorem busRead (r : Reg) : Statement (.busRead r) := rfl
theorem busReadAstat : Statement .busReadAstat := rfl
theorem busWrite (r : Reg) (v : Word) : Statement (.busWrite r v) := rfl
theorem busWriteMr2 (v : Word) : Statement (.busWriteMr2 v) := rfl
theorem busWriteAstat (v : Word) : Statement (.busWriteAstat v) := rfl
theorem pmdWrite (r : Reg) (v : Word) : Statement (.pmdWrite r v) := rfl
theorem pmdRead (r : Reg) : Statement (.pmdRead r) := rfl
theorem setMode (bit : Nat) (value : Bool) : Statement (.setMode bit value) := rfl
theorem aluop (f : Nat) (dest : AluDest) (xop : AluXop) (yop : AluYop) : Statement (.aluop f dest xop yop) := rfl
theorem abs : Statement .abs := rfl

end Sys2Proof.Laws.PatternedRows
end

