-- ==== Sys2Proof/Tests/Slice0.lean ====
section
/-! SUPPORT. The model's own tests: an ill-formed operation for each check of WellFormed, words of
95_test_vectors.md section 2.6, single steps of its sections 2.1, 2.2, 2.4 and 2.5 (a vector's name there stands in
each test's name), and for every statement with hypotheses a witness that meets them. -/

namespace Sys2Proof.Tests

open Sys2Proof.Machine

/-! ## Helpers -/

/-- The next state, if there is one, has property p. -/
def after (o : Host.Outcome State Fault Refusal) (p : State → Bool) : Bool :=
  match o with
  | .next t => p t
  | .fault _ => false
  | .refused _ => false

/-- The launch state with these ALU registers and flags. -/
def withAlu (a : AluRegs) (f : Astat) : State := { State.reset with aluPrimary := a, astat := f }

/-- The launch state with these values in MX0, MY0 and MR, in integer mode or not. -/
def withMac (integer : Bool) (mx0 my0 : Word) (mr : Acc) : State :=
  { State.reset with
    macPrimary := { MacRegs.reset with MX0 := mx0, MY0 := my0, MR := mr }
    mstat := { Mstat.reset with integer := integer } }

/-- AV, MSTAT.2 as given and AX0 = 1, the start of vectors V1 to V8. -/
def latchStart (latch av : Bool) : State :=
  { State.reset with
    aluPrimary := { AluRegs.reset with AX0 := 1 }
    astat := { Astat.reset with AV := av }
    mstat := { Mstat.reset with latch := latch } }

/-- The fixtures of 95_test_vectors.md section 2.1; not functions of the chip. -/
def fixtureOvf : AluFunction := fun x _ _ => ⟨x, true, false, ⟨false, false, true, false⟩⟩
def fixtureNov : AluFunction := fun x _ _ => ⟨x, false, false, ⟨false, false, true, false⟩⟩
def fixtureZnc : AluFunction := fun x _ c => ⟨x, false, c, ⟨true, true, false, true⟩⟩

/-! ## WellFormed refuses an ill-formed operation for each check -/

theorem test_wellFormed_divs_yop :
    (Instr.divs .ay0 .ax0).wellFormed = false ∧ (Instr.divs .zero .ax0).wellFormed = false := by decide
theorem test_wellFormed_mac_yop :
    (Instr.mul .mr .mx0 .zero .ss Cond.always).wellFormed = false ∧
    (Instr.macadd .mr .mx0 .zero .ss Cond.always).wellFormed = false ∧
    (Instr.macsub .mf .mx0 .zero .ss Cond.always).wellFormed = false := by decide
theorem test_wellFormed_mac_condition :
    (Instr.mul .mr .mx0 .my0 .ss 0).wellFormed = false ∧ (Instr.macadd .mr .mx0 .my0 .ss 1).wellFormed = false ∧
    (Instr.macsub .mr .mx0 .my0 .ss 14).wellFormed = false ∧ (Instr.mrclr 7).wellFormed = false := by decide
theorem test_wellFormed_dmd_path :
    (Instr.busRead .mf).wellFormed = false ∧ (Instr.busRead .mstat).wellFormed = false ∧
    (Instr.busWrite .af 0).wellFormed = false ∧ (Instr.busWrite .sr1 0).wellFormed = false := by decide
theorem test_wellFormed_pmd_path :
    (Instr.pmdWrite .mx0 0).wellFormed = false ∧ (Instr.pmdRead .mr0).wellFormed = false := by decide
theorem test_wellFormed_mstat_bit : (Instr.setMode 1 true).wellFormed = false := by decide
theorem test_wellFormed_abs : Instr.abs.wellFormed = false := by decide

/-! ## Words written out from the patterns of R89 (95_test_vectors.md section 2.6) -/

theorem test_decode_divs : decode 0b011000000000100000000000#24 = .instr (.divs .ay1 .ax0) := by decide
theorem test_decode_divq : decode 0b011100010000000100000000#24 = .instr (.divq .ax1) := by decide
theorem test_decode_mul :
    decode 0b001000001110000000001111#24 = .instr (.mul .mr .mx0 .my0 .uu Cond.always) := by decide
theorem test_decode_mul_mf :
    decode 0b001001001000000000001111#24 = .instr (.mul .mf .mx0 .my0 .ss Cond.always) := by decide
theorem test_decode_macadd :
    decode 0b001000010000100100001111#24 = .instr (.macadd .mr .mx1 .my1 .ss Cond.always) := by decide
theorem test_decode_macsub :
    decode 0b001000011000000000001111#24 = .instr (.macsub .mr .mx0 .my0 .ss Cond.always) := by decide
theorem test_decode_mrclr : decode 0b001000001001100000001111#24 = .instr (.mrclr Cond.always) := by decide
theorem test_decode_words_rejected :
    decode 0x000000#24 = .rejected .unknownWord ∧ decode 0x20200F#24 = .rejected .macRounding ∧
    decode 0x22600F#24 = .rejected .functionNotListed := by decide
/-- The ten rows that have no pattern in any source (R80) have no word. -/
theorem test_rows_without_words :
    encode (.busRead .mx0) = none ∧ encode .busReadAstat = none ∧ encode (.busWrite .mx0 1) = none ∧
    encode (.busWriteMr2 1) = none ∧ encode (.busWriteAstat 1) = none ∧ encode (.pmdWrite .my0 1) = none ∧
    encode (.pmdRead .my0) = none ∧ encode (.setMode 0 true) = none ∧ encode (.aluop 0 .ar .ax0 .ay0) = none ∧
    encode .abs = none := by decide
theorem test_decodeTableWord :
    decodeTableWord 24 0x601000 = some (.divs .af .ax0) ∧ decodeTableWord 8 0x60 = none := by decide

/-! ## Single steps -/

theorem test_divs_S3 :
    after (exec (.divs .ay1 .ax0) (withAlu ⟨1, 0, 0x8000, 0x7FFF, 0, 0⟩ Astat.reset)) (fun t =>
      t.alu.AF == 0xFFFF && t.alu.AY0 == 0 && !t.astat.AQ && t.alu.AY1 == 0x7FFF) = true := by decide
theorem test_divs_S6 :
    after (exec (.divs .af .ax1) (withAlu ⟨0, 0x7FFF, 0x7FFF, 0, 0xFFFF, 0⟩ Astat.reset)) (fun t =>
      t.alu.AF == 0xFFFE && t.alu.AY0 == 0xFFFF && t.astat.AQ) = true := by decide
theorem test_divq_Q3 :
    after (exec (.divq .ax0) (withAlu ⟨1, 0, 0x8000, 0, 0x8000, 0⟩ Astat.reset)) (fun t =>
      t.alu.AF == 0xFFFF && t.alu.AY0 == 1 && !t.astat.AQ) = true := by decide
theorem test_divq_Q6 :
    after (exec (.divq .ax0) (withAlu ⟨0xFFFF, 0, 1, 0, 0xFFFF, 0⟩ { Astat.reset with AQ := true })) (fun t =>
      t.alu.AF == 0xFFFC && t.alu.AY0 == 3 && !t.astat.AQ) = true := by decide
theorem test_mul_M2 :
    after (exec (.mul .mr .mx0 .my0 .ss Cond.always) (withMac false 0x8000 0x8000 7)) (fun t =>
      t.mac.MR == 0x0080000000 && t.astat.MV) = true := by decide
theorem test_mul_M32 :
    after (exec (.mul .mr .mr2 .my0 .us Cond.always) (withMac true 0 2 0x8000000000)) (fun t =>
      t.mac.MR == 0x000001FF00 && !t.astat.MV) = true := by decide
theorem test_macadd_M26 :
    after (exec (.macadd .mr .mx0 .my0 .ss Cond.always) (withMac true 1 1 0x7FFFFFFFFF)) (fun t =>
      t.mac.MR == 0x8000000000 && t.astat.MV) = true := by decide
theorem test_macadd_M42 :
    after (exec (.macadd .mf .mx0 .my0 .ss Cond.always) (withMac true 0x100 0x100 0x0012345678)) (fun t =>
      t.mac.MF == 0x1235 && t.mac.MR == 0x0012345678) = true := by decide
theorem test_macsub_M25 :
    after (exec (.macsub .mr .mx0 .my0 .ss Cond.always) (withMac false 2 3 0)) (fun t =>
      t.mac.MR == 0xFFFFFFFFF4 && !t.astat.MV) = true := by decide
theorem test_macsub_M27 :
    after (exec (.macsub .mr .mx0 .my0 .ss Cond.always) (withMac true 1 1 0x8000000000)) (fun t =>
      t.mac.MR == 0x7FFFFFFFFF && t.astat.MV) = true := by decide
theorem test_macResult_M12_M13 :
    macResult .zero .mul true .uu 0 0xFFFF 0xFFFF = 0x00FFFE0001 ∧
    macResult .zero .mul false .uu 0 0xFFFF 0xFFFF = 0x01FFFC0002 ∧
    macResult .sign .mul true .uu 0 0xFFFF 0xFFFF = 0xFFFFFE0001 ∧
    macResult .sign .mul false .uu 0 0xFFFF 0xFFFF = 0xFFFFFC0002 := by decide
theorem test_macResult_M17_M21 :
    macResult .zero .mul true .su 0 0x8000 0xFFFF = 0xFF80008000 ∧
    macResult .zero .mul true .us 0 0xFFFF 0x8000 = 0xFF80008000 := by decide
theorem test_mvOf_M28_M29 : mvOf 0xFF80000000 = false ∧ mvOf 0xFF7FFFFFFF = true := by decide
theorem test_mrclr_M30 :
    after (exec (.mrclr Cond.always)
      { withMac false 0 0 0x123456789A with astat := { Astat.reset with MV := true } }) (fun t =>
      t.mac.MR == 0 && !t.astat.MV) = true := by decide
theorem test_clear_of_mf_M44 (s : State) :
    exec (.mul .mf .mx0 .zero .ss Cond.always) s = .refused .clearOfMf := rfl
theorem test_busRead_A1 :
    after (exec (.busRead .mr2) (withMac false 0 0 0x8000000000)) (fun t => t.outputs == [0xFF80]) = true := by
  decide
theorem test_busRead_A4 :
    after (exec (.busRead .mr1) (withMac false 0 0 0xFF12345678)) (fun t => t.outputs == [0x1234]) = true := by
  decide
theorem test_busWrite_A5 :
    after (exec (.busWrite .mr0 0xFFFF) (withMac false 0 0 0x123456789A)) (fun t =>
      t.mac.MR == 0x123456FFFF && !t.astat.MV) = true := by decide
theorem test_loadMr1_A6_A7_A8 :
    loadMr1 true 0 0x8000 = 0xFF80000000 ∧ loadMr1 false 0 0x8000 = 0x0080000000 ∧
    loadMr1 true 0x5500000000 0x7FFF = 0x007FFF0000 := by decide
theorem test_busWriteMr2_A3 :
    after (exec (.busWriteMr2 0x12FF) (withMac false 0 0 0)) (fun t => t.mac.MR == 0xFF00000000) = true := by
  decide
/-- Vector A10, in the general-knowledge layout: the low seven bits are 65 hexadecimal, the others the free word's. -/
theorem test_packAstat_A10 :
    packAstat (Equiv.refl _) ⟨true, false, true, false, false, true, true⟩ 0x0000 = 0x0065 ∧
    packAstat (Equiv.refl _) ⟨true, false, true, false, false, true, true⟩ 0xFFFF = 0xFFE5 := by decide
theorem test_unpackAstat_A11 :
    unpackAstat (Equiv.refl _) 0xFF9B = ⟨true, true, false, true, true, false, false⟩ := by decide
theorem test_busWriteAstat_V9 :
    after (exec (.busWriteAstat 0) (latchStart true true)) (fun t => !t.astat.AV && t.mstat.latch) = true := by
  simp [after, exec, execBusWriteAstat, unpackAstat, latchStart]
theorem test_pmdWrite_A13 :
    after (exec (.pmdWrite .my1 0xBEEF) State.reset) (fun t => t.mac.MY1 == 0xBEEF && t.mac.MY0 == 0) = true := by
  decide
theorem test_pmdRead_A13 :
    after (exec (.pmdRead .my0) (withMac false 0 0xBEEF 0)) (fun t => t.outputs == [0xBEEF]) = true := by decide
theorem test_pmd_A14 (s : State) :
    exec (.pmdWrite .mx0 1) s = .refused .noBusPath ∧ exec (.pmdRead .mr0) s = .refused .noBusPath := ⟨rfl, rfl⟩
theorem test_setMode_V11 :
    after (exec (.setMode 2 true) (latchStart false true)) (fun t => t.astat.AV && t.mstat.latch) = true := by
  decide
/-- Vector A17, its second operation. -/
theorem test_setMode_A17 :
    after (exec (.setMode 0 true)
      { State.reset with
        macPrimary := { MacRegs.reset with MX0 := 0x1111 }
        macSecondary := { MacRegs.reset with MX0 := 0x2222 } }) (fun t =>
      t.mac.MX0 == 0x2222 && t.macPrimary.MX0 == 0x1111) = true := by decide
theorem test_aluop_V1_to_V8 :
    (aluWith fixtureNov .ar .ax0 .ay0 (latchStart false false)).astat.AV = false ∧
    (aluWith fixtureOvf .ar .ax0 .ay0 (latchStart false false)).astat.AV = true ∧
    (aluWith fixtureNov .ar .ax0 .ay0 (latchStart false true)).astat.AV = false ∧
    (aluWith fixtureOvf .ar .ax0 .ay0 (latchStart false true)).astat.AV = true ∧
    (aluWith fixtureNov .ar .ax0 .ay0 (latchStart true false)).astat.AV = false ∧
    (aluWith fixtureOvf .ar .ax0 .ay0 (latchStart true false)).astat.AV = true ∧
    (aluWith fixtureNov .ar .ax0 .ay0 (latchStart true true)).astat.AV = true ∧
    (aluWith fixtureOvf .ar .ax0 .ay0 (latchStart true true)).astat.AV = true := by decide
theorem test_aluop_V13 :
    (aluWith fixtureZnc .ar .ax0 .ay0
      { withAlu ⟨0x8000, 0, 0, 0, 0, 0⟩ ⟨false, false, true, true, false, false, false⟩ with
        mstat := { Mstat.reset with latch := true } }).astat =
      ⟨false, true, true, true, false, false, false⟩ := by decide
theorem test_abs_V18 (s : State) : exec .abs s = .refused .absNotInSource := rfl

/-! ## Witnesses: for every statement with hypotheses, a state and operands that meet them together -/

theorem witness_EncodedOperationsDecodeToThemselves :
    (Instr.macsub .mf .sr1 .mf .uu Cond.always).wellFormed = true ∧
    (Instr.macsub .mf .sr1 .mf .uu Cond.always).hasPattern = true := by decide
theorem witness_DecodedWordsAreTheEncodersWords :
    decode 0x710700#24 = .instr (.divq .sr1) ∧ (∀ c, Instr.divq .sr1 ≠ .mrclr c) ∧
    decode 0x209F0F#24 = .instr (.mrclr Cond.always) := ⟨by decide, by simp, by decide⟩
theorem witness_RoundingWordsAreRejected :
    (1#5 = 1#5 ∨ 1#5 = 2#5 ∨ 1#5 = 3#5) ∧ (3#5 = 1#5 ∨ 3#5 = 2#5 ∨ 3#5 = 3#5) := by decide

/-- A program of an operation, a word loaded as an operation, and a word that is rejected. -/
def threePlaces (pc : Nat) : State :=
  { State.reset with program := [.operation (.divq .ax0), .ofWord 0x710100#24, .ofWord 0#24], pc := pc }

theorem witness_StepExecutesTheOperationAtPc :
    (threePlaces 0).program[(threePlaces 0).pc]? = some (.operation (.divq .ax0)) ∧
    (threePlaces 1).program[(threePlaces 1).pc]? = some (.ofWord 0x710100#24) ∧
    decode 0x710100#24 = .instr (.divq .ax1) ∧
    (threePlaces 2).program[(threePlaces 2).pc]? = some (.ofWord 0#24) ∧
    decode 0#24 = .rejected .unknownWord ∧
    (threePlaces 3).program.length ≤ (threePlaces 3).pc := by decide
theorem witness_PlacedWordIsExecutedNext :
    decodeTableWord 24 0x710100 = some (.divq .ax1) ∧ 2 ≠ (threePlaces 1).pc ∧
    2 < (threePlaces 1).program.length := by decide
theorem witness_AdmittedOperationsAreThoseThatComplete :
    (Instr.busRead .mr2).wellFormed = true ∧ (Instr.busRead .mf).wellFormed = false := by decide
theorem witness_OperationsAdvancePcByOneAndKeepTheProgram :
    ∃ t, exec (.divq .ax0) (threePlaces 0) = .next t := ⟨_, rfl⟩
theorem witness_RunsAdvancePcAndKeepTheProgram :
    ∃ t, Host.Core.run core 2 (threePlaces 0) = .next t := ⟨_, rfl⟩
theorem witness_StepKeepsTheRunInvariant :
    (threePlaces 1).Inv ∧ ∃ t, step (threePlaces 1) = .next t := ⟨by decide, _, rfl⟩
theorem witness_UnselectedMacBankIsNeitherReadNorWritten :
    ∃ t, exec (.mul .mr .mx0 .my0 .ss Cond.always) (withMac false 2 3 4) = .next t := ⟨_, rfl⟩
theorem witness_AluCopyNotInUseIsNeitherReadNorWritten :
    ∃ t, exec (.divs .ay1 .ax0) State.reset = .next t := ⟨_, rfl⟩
theorem witness_OnlyDivisionAndAstatWritesChangeAq :
    ∃ t, exec (.divq .ax0) (withAlu ⟨1, 0, 0, 0, 0, 0⟩ Astat.reset) = .next t ∧ t.astat.AQ ≠ false :=
  ⟨_, rfl, by decide⟩

/-- A write of all ones sets every flag, wherever it stands. -/
theorem unpackAstat_ones (layout : AstatLayout) :
    unpackAstat layout 0xFFFF#16 = ⟨true, true, true, true, true, true, true⟩ := by
  have h : ∀ p : Fin 16, (0xFFFF#16).getLsbD p = true := by decide
  simp [unpackAstat, h]

theorem witness_OnlyAstatWritesChangeAsAndAbsIsRefused :
    ∃ t, exec (.busWriteAstat 0xFFFF#16) State.reset = .next t ∧ t.astat.AS ≠ State.reset.astat.AS :=
  ⟨_, rfl, by simp [unpackAstat_ones, State.reset, Astat.reset]⟩
theorem witness_OnlyAluOperationsAndAstatWritesChangeAluFlags :
    ∃ t, exec (.busWriteAstat 0xFFFF#16) State.reset = .next t ∧
      (t.astat.AZ ≠ State.reset.astat.AZ ∨ t.astat.AN ≠ State.reset.astat.AN ∨
        t.astat.AC ≠ State.reset.astat.AC ∨ t.astat.AV ≠ State.reset.astat.AV) :=
  ⟨_, rfl, by simp [unpackAstat_ones, State.reset, Astat.reset]⟩
theorem witness_OnlyMacOperationsAndAstatWritesChangeMv :
    ∃ t, exec (.mul .mr .mx0 .my0 .ss Cond.always) (withMac false 0x8000 0x8000 0) = .next t ∧
      t.astat.MV ≠ (withMac false 0x8000 0x8000 0).astat.MV := ⟨_, rfl, by decide⟩
theorem witness_OnlyComputationsChangeAfAndMf :
    (∃ t, exec (.divq .ax0) (withAlu ⟨1, 0, 0, 0, 0, 0⟩ Astat.reset) = .next t ∧ t.aluPrimary.AF ≠ 0) ∧
    (∃ t, exec (.mul .mf .mx0 .my0 .ss Cond.always) (withMac false 0x4000 0x4000 0) = .next t ∧
      t.macPrimary.MF ≠ (withMac false 0x4000 0x4000 0).macPrimary.MF) :=
  ⟨⟨_, rfl, by decide⟩, ⟨_, rfl, by decide⟩⟩
theorem witness_ShifterResultsStayAndOnlySetModeChangesModes :
    ∃ t, exec (.setMode 4 true) State.reset = .next t ∧ t.mstat ≠ State.reset.mstat := ⟨_, rfl, by decide⟩
theorem witness_LatchedAvIsClearedOnlyByAnAstatWrite :
    (latchStart true true).mstat.latch = true ∧ (latchStart true true).astat.AV = true ∧
    ∃ t, exec (.busWriteAstat 0) (latchStart true true) = .next t ∧ t.astat.AV = false :=
  ⟨rfl, rfl, _, rfl, by simp [unpackAstat]⟩
theorem witness_LatchModeOrsTheOverflowIntoAv :
    (latchStart true true).mstat.latch = true ∧ (latchStart true true).astat.AV = true := by decide
theorem witness_WithoutLatchAvFollowsTheOverflow : (latchStart false true).mstat.latch = false := by decide
theorem witness_DivsShiftsTheDividendAndSetsTheSign :
    (DivsYop.ay1 = .ay1 ∨ DivsYop.ay1 = .af) ∧ (DivsYop.af = .ay1 ∨ DivsYop.af = .af) := by decide
theorem witness_DivsOfAnotherYopIsRefused :
    (DivsYop.ay0 ≠ .ay1 ∧ DivsYop.ay0 ≠ .af) ∧ (DivsYop.zero ≠ .ay1 ∧ DivsYop.zero ≠ .af) := by decide

/-- A division in progress: the divisor in AX0, the partial remainder in AF and AQ. -/
def dividing (d af : Word) (aq : Bool) : State := withAlu ⟨d, 0, 0x8000, 0, af, 0⟩ { Astat.reset with AQ := aq }

/-- The hypotheses of DivqIsOneNonRestoringStep, for xop AX0. -/
def nonRestoringPremises (s : State) : Bool :=
  decide (0 < (busValue .ax0 s).toNat) && decide ((busValue .ax0 s).toNat < 2 ^ 15) &&
    decide (-2 * ((busValue .ax0 s).toNat : Int) ≤ partialRemainder s) &&
    decide (partialRemainder s < 2 * ((busValue .ax0 s).toNat : Int))

/-- The least and the greatest partial remainder of the least and the greatest divisor. -/
theorem witness_DivqIsOneNonRestoringStep :
    nonRestoringPremises (dividing 1 0xFFFE true) = true ∧ nonRestoringPremises (dividing 1 1 false) = true ∧
    nonRestoringPremises (dividing 0x7FFF 0x0002 true) = true ∧
    nonRestoringPremises (dividing 0x7FFF 0xFFFD false) = true := by decide
theorem witness_DivisionByZeroCompletes : busValue .ax0 (dividing 0 5 false) = 0 := by decide
theorem witness_MulIntoMrIsThePresentedProduct : MacYop.my0 ≠ .zero := by decide
theorem witness_MacaddIntoMrAddsThePresentedProduct : MacYop.my1 ≠ .zero := by decide
theorem witness_MacsubIntoMrSubtractsThePresentedProduct : MacYop.mf ≠ .zero := by decide
theorem witness_MacOperationsIntoMfKeepMr : MacYop.mf ≠ .zero := by decide
/-- The products of largest magnitude meet the bounds of the port. -/
theorem witness_ProductsFitThePort :
    Fmt.su ≠ .uu ∧ macProduct .su 0x8000 0xFFFF = -2147450880 ∧
    Fmt.uu = .uu ∧ macProduct .uu 0xFFFF 0xFFFF = 0xFFFE0001 := by decide
theorem witness_FractionalModeShiftsTheProductLeftByOne :
    MacYop.my0 ≠ .zero ∧ (withMac false 0x4000 0x4000 0).mstat.integer = false := by decide
theorem witness_MacFormsLeftOutAreRefused : (0 : Cond) ≠ Cond.always ∧ (14 : Cond) ≠ Cond.always := by decide
theorem witness_BusReadHandsOutTheRegister :
    Reg.ax0.dmdReadable = true ∧ Reg.mr2.dmdReadable = true := by decide
theorem witness_BusReadAfterBusWriteGivesTheValue :
    Reg.mr2.dmdWritable = true ∧ Reg.mr1.dmdWritable = true := by decide
theorem witness_AccessesWithoutABusPathAreRefused :
    Reg.mf ∈ [Reg.mf, .af, .sr0, .sr1, .mstat] ∧ (Reg.mx0 ≠ .my0 ∧ Reg.mx0 ≠ .my1) := by decide
theorem witness_SetModeOfAnotherBitIsRefused :
    (1 ≠ 0 ∧ 1 ≠ 2 ∧ 1 ≠ 4) ∧ (5 ≠ 0 ∧ 5 ≠ 2 ∧ 5 ≠ 4) := by decide

end Sys2Proof.Tests
end

section
/-! The flags of ASTAT after an operation (40_alu_status_overflow_latch.md): which flags each shared operation writes,
what any operation that completes can do to ASTAT, and the rules for AQ (R107) and AS (R105) drawn from it. -/

namespace Sys2Proof.Machine

/-! ### ASTAT after the shared operations -/

@[simp] theorem writeDivide_astat (af ay0 : Word) (aq : Bool) (s : State) :
    (writeDivide af ay0 aq s).astat = { s.astat with AQ := aq } := rfl

/-- A MAC operation writes no flag but MV, whichever its destination (R148, R150). -/
theorem writeResult_astat (d : MacDest) (res : Acc) (s : State) :
    ∃ mv, (writeResult d res s).astat = { s.astat with MV := mv } := by
  cases d with
  | mr => exact ⟨mvOf res, rfl⟩
  | mf => exact ⟨Config.freeBit s.draws, rfl⟩

@[simp] theorem writeAlu_astat (o : AluOutcome) (d : AluDest) (s : State) :
    (writeAlu o d s).astat = aluFlags s.mstat.latch o s.astat := rfl

/-! ### ASTAT after any operation -/

/-- What an operation that completes can do to ASTAT: keep it, or write AQ (the division primitives), MV (the MAC
operations), the flags of an ALU function, or all of it (a bus write of ASTAT). -/
theorem exec_astat_cases {i : Instr} {s t : State} (h : exec i s = .next t) :
    t.astat = s.astat ∨
    ((∃ aq, t.astat = { s.astat with AQ := aq }) ∧ ((∃ y x, i = .divs y x) ∨ ∃ x, i = .divq x)) ∨
    ((∃ mv, t.astat = { s.astat with MV := mv }) ∧
      ((∃ d x y f c, i = .mul d x y f c ∨ i = .macadd d x y f c ∨ i = .macsub d x y f c) ∨ ∃ c, i = .mrclr c)) ∨
    ((∃ o, t.astat = aluFlags s.mstat.latch o s.astat) ∧ ∃ f d x y, i = .aluop f d x y) ∨
    ∃ v, i = .busWriteAstat v := by
  obtain ⟨af, ay0, aq, rfl, hi⟩ | ⟨d, res, rfl, hi⟩ | ⟨w, rfl⟩ | ⟨w, rfl⟩ | ⟨a, rfl, -⟩ | ⟨m, rfl, -⟩ |
    ⟨a, v, rfl, hi⟩ | ⟨m, b, v, rfl, -⟩ | ⟨f, d, x, y, o, rfl, hi⟩ := exec_next_cases h
  · exact .inr (.inl ⟨⟨aq, by simp⟩, hi⟩)
  · obtain ⟨mv, hmv⟩ := writeResult_astat d res s
    refine .inr (.inr (.inl ⟨⟨mv, by simpa using hmv⟩, ?_⟩))
    obtain ⟨x, y, f, c, hi⟩ | ⟨-, hi⟩ := hi
    · exact .inl ⟨d, x, y, f, c, hi⟩
    · exact .inr hi
  · exact .inl (by simp)
  · exact .inl (by simp)
  · exact .inl (by simp)
  · exact .inl (by simp)
  · exact .inr (.inr (.inr (.inr ⟨v, hi⟩)))
  · exact .inl (by simp)
  · exact .inr (.inr (.inr (.inl ⟨⟨o, by simp⟩, f, d, x, y, hi⟩)))

/-! ### AQ and AS -/

/-- Settles O15: of the ways an operation can change ASTAT, only those of DIVS, DIVQ and a bus write of ASTAT reach
AQ (R107). -/
theorem onlyDivisionAndAstatWritesChangeAq : Obligations.OnlyDivisionAndAstatWritesChangeAq := by
  intro i s t h hAQ
  obtain keep | ⟨-, divs | divq⟩ | ⟨⟨mv, mac⟩, -⟩ | ⟨⟨o, alu⟩, -⟩ | write := exec_astat_cases h
  · exact absurd (by rw [keep]) hAQ
  · exact .inl divs
  · exact .inr (.inl divq)
  · exact absurd (by rw [mac]) hAQ
  · exact absurd (by rw [alu, aluFlags_AQ]) hAQ
  · exact .inr (.inr write)

/-- Settles O16: of the ways an operation can change ASTAT, only a bus write of ASTAT reaches AS, and the arm of ABS is
a refusal (R105). -/
theorem onlyAstatWritesChangeAsAndAbsIsRefused : Obligations.OnlyAstatWritesChangeAsAndAbsIsRefused := by
  refine ⟨fun i s t h hAS => ?_, fun s => rfl⟩
  obtain keep | ⟨⟨aq, div⟩, -⟩ | ⟨⟨mv, mac⟩, -⟩ | ⟨⟨o, alu⟩, -⟩ | write := exec_astat_cases h
  · exact absurd (by rw [keep]) hAS
  · exact absurd (by rw [div]) hAS
  · exact absurd (by rw [mac]) hAS
  · exact absurd (by rw [alu, aluFlags_AS]) hAS
  · exact write

end Sys2Proof.Machine
end

section
/-! The PMD bus (43_register_access.md rules R181 and R182): a read hands out what the register holds, a write has the
effect of the bus write of the same register. -/

namespace Sys2Proof.Machine

/-! ### Reads -/

/-- The PMD read paths are those of R171, and what a register drives there is its bus value. -/
theorem pmdRead_eq (r : Reg) (s : State) : pmdRead r s = if r.onPmd then some (busValue r s) else none := by
  cases r <;> rfl

theorem exec_pmdRead {r : Reg} (hr : r.onPmd = true) (s : State) :
    exec (.pmdRead r) s = .next { s with outputs := s.outputs ++ [busValue r s], pc := s.pc + 1 } := by
  have hread : pmdRead r s = some (busValue r s) := by rw [pmdRead_eq, if_pos hr]
  change finishRead (pmdRead r s) s = _
  rw [hread]
  rfl

/-- Settles O39: MY0 and MY1 are on the PMD bus, and the bus value of each is the register itself (R182). -/
theorem pmdReadHandsOutMy : Obligations.PmdReadHandsOutMy :=
  fun s => ⟨exec_pmdRead rfl s, exec_pmdRead rfl s⟩

/-! ### Writes -/

/-- A write of the MAC registers followed by the advance of pc, as one record. -/
theorem State.setMac_advance (s : State) (m : MacRegs) :
    (s.setMac m).advance = { s.setMac m with pc := s.pc + 1 } := by
  simp [State.advance]

/-- A register on both buses is written alike from either (R174, R181). -/
theorem dmdWrite_eq_pmdWrite {r : Reg} (hr : r.onPmd = true) (v : Word) (s : State) :
    dmdWrite r v s = pmdWrite r v s := by
  cases r with
  | my0 | my1 => rfl
  | _ => cases hr

theorem exec_busWrite_eq_pmdWrite {r : Reg} (hr : r.onPmd = true) (v : Word) (s : State) :
    exec (.busWrite r v) s = exec (.pmdWrite r v) s :=
  congrArg finishWrite (dmdWrite_eq_pmdWrite hr v s)

/-- Settles O47: a PMD write writes the copy of MY0 or MY1 in use and advances pc, and on these two registers the two
buses write alike (R181). -/
theorem pmdWriteWritesMy : Obligations.PmdWriteWritesMy :=
  fun v s => ⟨congrArg Host.Outcome.next (s.setMac_advance _), congrArg Host.Outcome.next (s.setMac_advance _),
    exec_busWrite_eq_pmdWrite rfl v s, exec_busWrite_eq_pmdWrite rfl v s⟩

end Sys2Proof.Machine
end

section
/-! The words of the six patterned operations (30_encoding.md rule R89): what the decoder answers on a word of each
pattern, which words it takes for an operation, and the encoder's agreement with it in both directions. -/

namespace Sys2Proof

/-! ### Words of the two division patterns -/

theorem divsWord_fields (p : BitVec 11) (y : BitVec 2) (x : BitVec 3) (o : BitVec 8) :
    let w : Code := (p ++ y ++ x ++ o : BitVec (11 + 2 + 3 + 8))
    w.extractLsb' 13 11 = p ∧ w.extractLsb' 11 2 = y ∧ w.extractLsb' 8 3 = x ∧ w.extractLsb' 0 8 = o := by
  intro w
  have hw : w.toNat = _ := divsWord_toNat p y x o
  have := p.isLt; have := y.isLt; have := x.isLt; have := o.isLt
  refine ⟨?_, ?_, ?_, ?_⟩ <;> apply BitVec.eq_of_toNat_eq <;>
    simp only [BitVec.extractLsb'_toNat, Nat.shiftRight_eq_div_pow, hw] <;> omega

theorem divqWord_fields (p : BitVec 13) (x : BitVec 3) (o : BitVec 8) :
    let w : Code := (p ++ x ++ o : BitVec (13 + 3 + 8))
    w.extractLsb' 11 13 = p ∧ w.extractLsb' 8 3 = x ∧ w.extractLsb' 0 8 = o := by
  intro w
  have hw : w.toNat = _ := divqWord_toNat p x o
  have := p.isLt; have := x.isLt; have := o.isLt
  refine ⟨?_, ?_, ?_⟩ <;> apply BitVec.eq_of_toNat_eq <;>
    simp only [BitVec.extractLsb'_toNat, Nat.shiftRight_eq_div_pow, hw] <;> omega

theorem decode_divsWord (y : BitVec 2) (x : BitVec 3) :
    decode (0b01100000000#11 ++ y ++ x ++ 0#8 : BitVec (11 + 2 + 3 + 8)) =
      .instr (.divs (decodeDivsYop y) (decodeAluXop x)) := by
  obtain ⟨fixed, yop, xop, low⟩ := divsWord_fields 0b01100000000#11 y x 0#8
  unfold decode
  rw [if_pos ⟨fixed, low⟩, yop, xop]

/-- A word of DIVQ is not taken for one of DIVS: bits 23 to 13 differ. -/
theorem decode_divqWord (x : BitVec 3) :
    decode (0b0111000100000#13 ++ x ++ 0#8 : BitVec (13 + 3 + 8)) = .instr (.divq (decodeAluXop x)) := by
  obtain ⟨fixed, xop, low⟩ := divqWord_fields 0b0111000100000#13 x 0#8
  have notDivs : BitVec.extractLsb' 13 11 (0b0111000100000#13 ++ x ++ 0#8 : Code) ≠ 0b01100000000#11 := by
    clear fixed xop low
    revert x
    decide
  unfold decode
  rw [if_neg fun e => notDivs e.1, if_pos ⟨fixed, low⟩, xop]

/-! ### Which words are operations -/

/-- A word the decoder takes for an operation is of one of the three patterns, and its fields name the operation. -/
theorem decode_instr_cases {w : Code} {i : Instr} (h : decode w = .instr i) :
    (∃ y x, w = (0b01100000000#11 ++ y ++ x ++ 0#8 : BitVec (11 + 2 + 3 + 8)) ∧
      i = .divs (decodeDivsYop y) (decodeAluXop x)) ∨
    (∃ x, w = (0b0111000100000#13 ++ x ++ 0#8 : BitVec (13 + 3 + 8)) ∧ i = .divq (decodeAluXop x)) ∨
    (∃ z g f y x c,
      w = (0b00100#5 ++ z ++ g ++ f ++ y ++ x ++ 0#4 ++ c : BitVec (5 + 1 + 3 + 2 + 2 + 3 + 4 + 4)) ∧
      decodeMac z g f y x c = .instr i) := by
  unfold decode at h
  split at h
  next fixed =>
    have eta := divsWord_eta w
    rw [fixed.1, fixed.2] at eta
    exact .inl ⟨_, _, eta, by simpa using h.symm⟩
  split at h
  next fixed =>
    have eta := divqWord_eta w
    rw [fixed.1, fixed.2] at eta
    exact .inr (.inl ⟨_, eta, by simpa using h.symm⟩)
  split at h
  next fixed =>
    have eta := macWord_eta w
    rw [fixed.1, fixed.2] at eta
    exact .inr (.inr ⟨_, _, _, _, _, _, eta, h⟩)
  · cases h

/-- The MAC operations by their function codes (R89). -/
theorem decodeMac_instr_cases {z : BitVec 1} {g : BitVec 3} {f y : BitVec 2} {x : BitVec 3} {c : Cond} {i : Instr}
    (h : decodeMac z g f y x c = .instr i) :
    (g = 1#3 ∧ z = 0#1 ∧ f = 0#2 ∧ y = 3#2 ∧ i = .mrclr c) ∨
    (g = 1#3 ∧ i = .mul (decodeMacDest z) (decodeMacXop x) (decodeMacYop y) (decodeFmt f) c) ∨
    (g = 2#3 ∧ i = .macadd (decodeMacDest z) (decodeMacXop x) (decodeMacYop y) (decodeFmt f) c) ∨
    (g = 3#3 ∧ i = .macsub (decodeMacDest z) (decodeMacXop x) (decodeMacYop y) (decodeFmt f) c) := by
  unfold decodeMac at h
  split at h
  next => cases h
  next code =>
    have hg : g = 1#3 := BitVec.eq_of_toNat_eq code
    split at h
    next clear =>
      obtain ⟨hz, hf, hy⟩ := clear
      exact .inl ⟨hg, hz, hf, hy, by simpa using h.symm⟩
    next => exact .inr (.inl ⟨hg, by simpa using h.symm⟩)
  next code => exact .inr (.inr (.inl ⟨BitVec.eq_of_toNat_eq code, by simpa using h.symm⟩))
  next code => exact .inr (.inr (.inr ⟨BitVec.eq_of_toNat_eq code, by simpa using h.symm⟩))
  next => cases h

/-! ### Decoding what the encoder writes -/

theorem decode_encodeMac (g : BitVec 3) (d : MacDest) (x : MacXop) (y : MacYop) (f : Fmt) (c : Cond) :
    decode (encodeMac g d x y f c) =
      decodeMac (encodeMacDest d) g (encodeFmt f) (encodeMacYop y) (encodeMacXop x) c :=
  decode_macWord _ _ _ _ _ _

/-- The word of a multiplication is not the word of MRCLR, whose yop code is 3. -/
theorem encodeMacYop_ne_three {y : MacYop} (hy : y.admitted = true) : encodeMacYop y ≠ 3#2 := by
  cases y with
  | zero => cases hy
  | my0 | my1 | mf => decide

/-- Settles O2: each of the three patterns gives its fields back, and the field codes are inverse to each other. -/
theorem encodedOperationsDecodeToThemselves : Obligations.EncodedOperationsDecodeToThemselves := by
  intro i admitted patterned
  cases i with
  | divs y x => exact ⟨_, rfl, by rw [decode_divsWord, decodeDivsYop_encode, decodeAluXop_encode]⟩
  | divq x => exact ⟨_, rfl, by rw [decode_divqWord, decodeAluXop_encode]⟩
  | mul d x y f c =>
    have hy : y.admitted = true := by simp_all [Instr.wellFormed]
    exact ⟨_, rfl, by rw [decode_encodeMac]; simp [decodeMac, encodeMacYop_ne_three hy]⟩
  | macadd d x y f c => exact ⟨_, rfl, by rw [decode_encodeMac]; simp [decodeMac]⟩
  | macsub d x y f c => exact ⟨_, rfl, by rw [decode_encodeMac]; simp [decodeMac]⟩
  | mrclr c => exact ⟨_, rfl, by rw [decode_encodeMac]; rfl⟩
  | _ => cases patterned

/-! ### Encoding what the decoder reads -/

/-- The mask of O3 clears the three xop bits of a MAC word and no others. -/
theorem macWord_and_xopMask (p : BitVec 5) (z : BitVec 1) (g : BitVec 3) (f y : BitVec 2) (x : BitVec 3)
    (o c : BitVec 4) :
    (p ++ z ++ g ++ f ++ y ++ x ++ o ++ c : BitVec (5 + 1 + 3 + 2 + 2 + 3 + 4 + 4)) &&& 0xFFF8FF#24 =
      (p ++ z ++ g ++ f ++ y ++ 0#3 ++ o ++ c : BitVec (5 + 1 + 3 + 2 + 2 + 3 + 4 + 4)) := by
  have mask : BitVec.ofNat (5 + 1 + 3 + 2 + 2 + 3 + 4 + 4) 0xFFF8FF =
      BitVec.allOnes 5 ++ BitVec.allOnes 1 ++ BitVec.allOnes 3 ++ BitVec.allOnes 2 ++ BitVec.allOnes 2 ++ 0#3 ++
        BitVec.allOnes 4 ++ BitVec.allOnes 4 := by decide
  change _ &&& BitVec.ofNat (5 + 1 + 3 + 2 + 2 + 3 + 4 + 4) 0xFFF8FF = _
  rw [mask]
  simp only [BitVec.and_append, BitVec.and_allOnes, BitVec.and_zero]

/-- Settles O3: a word of each pattern is put together again from the codes of the operands its fields name. -/
theorem decodedWordsAreTheEncodersWords : Obligations.DecodedWordsAreTheEncodersWords := by
  intro w i h
  obtain ⟨y, x, rfl, rfl⟩ | ⟨x, rfl, rfl⟩ | ⟨z, g, f, y, x, c, rfl, mac⟩ := decode_instr_cases h
  · exact ⟨fun _ => by simp [encode], by simp⟩
  · exact ⟨fun _ => by simp [encode], by simp⟩
  obtain ⟨rfl, rfl, rfl, rfl, rfl⟩ | ⟨rfl, rfl⟩ | ⟨rfl, rfl⟩ | ⟨rfl, rfl⟩ := decodeMac_instr_cases mac
  · exact ⟨fun other => absurd rfl (other c), fun _ _ => congrArg some (macWord_and_xopMask ..).symm⟩
  · exact ⟨fun _ => by simp [encode, encodeMac], by simp⟩
  · exact ⟨fun _ => by simp [encode, encodeMac], by simp⟩
  · exact ⟨fun _ => by simp [encode, encodeMac], by simp⟩

/-! ### The listed words and the rounding forms -/

/-- Settles O1: each word is closed, so the decoder is run on it. -/
theorem listedWordsDecodeToTheirOperations : Obligations.ListedWordsDecodeToTheirOperations := by
  unfold Obligations.ListedWordsDecodeToTheirOperations
  decide

/-- The five bits of AMF read as the decoder splits them, three and two (R89). -/
theorem amf_split (z : BitVec 1) (amf : BitVec 5) :
    (0b00100#5 ++ z ++ amf : BitVec (5 + 1 + 5)) =
      (0b00100#5 ++ z ++ amf.extractLsb' 2 3 ++ amf.extractLsb' 0 2 : BitVec (5 + 1 + 3 + 2)) := by
  revert z amf
  decide

theorem decode_amfWord (z : BitVec 1) (amf : BitVec 5) (y : BitVec 2) (x : BitVec 3) (c : BitVec 4) :
    decode (0b00100#5 ++ z ++ amf ++ y ++ x ++ 0#4 ++ c : BitVec (5 + 1 + 5 + 2 + 3 + 4 + 4)) =
      decodeMac z (amf.extractLsb' 2 3) (amf.extractLsb' 0 2) y x c := by
  rw [amf_split]
  exact decode_macWord z _ _ y x c

/-- Settles O4: codes 1 to 3 have 0 in AMF's upper three bits and not 0 in the lower two. -/
theorem roundingWordsAreRejected : Obligations.RoundingWordsAreRejected := by
  intro z amf y x c code
  rw [decode_amfWord]
  obtain rfl | rfl | rfl := code <;> rfl

end Sys2Proof
end

section
/-! The step and the run (10_state.md section 7): where an operation completes (30_encoding.md rule R81), what it does
to pc, the program, the outputs and the counter of free values, and the invariant of a run. -/

namespace Sys2Proof.Machine

/-! ### One step, by what the place at pc holds -/

theorem step_operation {s : State} {i : Instr} (h : s.fetch = some (.operation i)) : step s = exec i s := by
  simp [step, h]

theorem step_rejected {s : State} {why : Rejection} (h : s.fetch = some (.rejected why)) :
    step s = .refused (.rejectedWord why) := by
  simp [step, h]

theorem step_endOfRun {s : State} (h : s.program.length ≤ s.pc) : step s = .fault .endOfRun := by
  have past : s.fetch = none := List.getElem?_eq_none h
  simp [step, past]

/-- Settles O5: a place is an operation, a loaded word's operation, a rejected word, or missing (R38). -/
theorem stepExecutesTheOperationAtPc : Obligations.StepExecutesTheOperationAtPc := fun _ =>
  ⟨fun _ place => step_operation place,
    fun _ _ place word => step_operation (place.trans (congrArg some (Slot.ofWord_instr word))),
    fun _ _ place word => step_rejected (place.trans (congrArg some (Slot.ofWord_rejected word))),
    step_endOfRun⟩

theorem decodeTableWord_eq_some {nbits w : Nat} {i : Instr} (h : decodeTableWord nbits w = some i) :
    decode (tableWord nbits w) = .instr i := by
  unfold decodeTableWord at h
  split at h
  next decoded => rw [decoded, Option.some.inj h]
  next => cases h

/-- Settles O6: the load puts the word's operation at the place the next fetch finds, and other places keep theirs. -/
theorem placedWordIsExecutedNext : Obligations.PlacedWordIsExecutedNext := by
  intro s nbits w i h
  have placed : (s.withFetchWord nbits w).fetch = some (.ofWord (tableWord nbits w)) :=
    getElem?_placeAt_self _ s.pc s.program
  rw [Slot.ofWord_instr (decodeTableWord_eq_some h)] at placed
  exact ⟨step_operation placed, fun n other inside => getElem?_placeAt_other _ s.pc n s.program other inside⟩

/-! ### Where an operation completes -/

/-- The outcome is a next state when b says so, and otherwise a refusal; never a fault. -/
def CompletesIff (b : Bool) (o : Host.Outcome State Fault Refusal) : Prop :=
  (b = true → ∃ t, o = .next t) ∧ (b = false → ∃ r, o = .refused r)

theorem completesIff_next (t : State) : CompletesIff true (.next t) := ⟨fun _ => ⟨t, rfl⟩, nofun⟩
theorem completesIff_refused (r : Refusal) : CompletesIff false (.refused r) := ⟨nofun, fun _ => ⟨r, rfl⟩⟩

theorem finishRead_completesIff {w : Option Word} {b : Bool} (path : w.isSome = b) (s : State) :
    CompletesIff b (finishRead w s) := by
  subst path
  cases w with
  | none => exact completesIff_refused _
  | some w => exact completesIff_next _

theorem finishWrite_completesIff {u : Option State} {b : Bool} (path : u.isSome = b) :
    CompletesIff b (finishWrite u) := by
  subst path
  cases u with
  | none => exact completesIff_refused _
  | some t => exact completesIff_next _

theorem dmdRead_isSome (r : Reg) (s : State) : (dmdRead r s).isSome = r.dmdReadable := by
  cases r <;> rfl

theorem macCore_conditional (g : MacFunc) (r : Refusal) (d : MacDest) (x : MacXop) (y : MacYop) (f : Fmt) {c : Cond}
    (s : State) (hc : c ≠ Cond.always) : macCore g r d x y f c s = .refused .conditionalForm :=
  if_neg hc

theorem macCore_zero (g : MacFunc) (r : Refusal) (d : MacDest) (x : MacXop) (f : Fmt) (s : State) :
    macCore g r d x .zero f Cond.always s = .refused r := rfl

theorem macCore_completesIff (g : MacFunc) (r : Refusal) (d : MacDest) (x : MacXop) (y : MacYop) (f : Fmt) (c : Cond)
    (s : State) : CompletesIff (y.admitted && c == Cond.always) (macCore g r d x y f c s) := by
  by_cases hc : c = Cond.always
  · subst hc
    cases y with
    | zero => exact completesIff_refused r
    | my0 | my1 | mf => exact completesIff_next _
  · rw [macCore_conditional _ _ _ _ _ _ _ hc, beq_false_of_ne hc, Bool.and_false]
    exact completesIff_refused _

theorem execMrclr_completesIff (c : Cond) (s : State) : CompletesIff (c == Cond.always) (execMrclr c s) := by
  unfold execMrclr
  split
  next hc => subst hc; exact completesIff_next _
  next hc => rw [beq_false_of_ne hc]; exact completesIff_refused _

theorem execDivs_completesIff (y : DivsYop) (x : AluXop) (s : State) : CompletesIff y.admitted (execDivs y x s) := by
  cases y with
  | ay0 | zero => exact completesIff_refused _
  | ay1 | af => exact completesIff_next _

theorem execSetMode_completesIff (bit : Nat) (v : Bool) (s : State) :
    CompletesIff (mstatBits.contains bit) (execSetMode bit v s) := by
  rw [← writeMstatBit_isSome bit v s.mstat]
  unfold execSetMode
  split
  next noBit => rw [noBit]; exact completesIff_refused _
  next bit => rw [bit]; exact completesIff_next _

/-- An operation completes exactly when R81 admits it. -/
theorem exec_completesIff (i : Instr) (s : State) : CompletesIff i.wellFormed (exec i s) := by
  cases i with
  | divs y x => exact execDivs_completesIff y x s
  | divq x => exact completesIff_next _
  | mul d x y f c => exact macCore_completesIff _ _ d x y f c s
  | macadd d x y f c => exact macCore_completesIff _ _ d x y f c s
  | macsub d x y f c => exact macCore_completesIff _ _ d x y f c s
  | mrclr c => exact execMrclr_completesIff c s
  | busRead r => exact finishRead_completesIff (dmdRead_isSome r s) s
  | busReadAstat => exact completesIff_next _
  | busWrite r v => exact finishWrite_completesIff (dmdWrite_isSome r v s)
  | busWriteMr2 v => exact completesIff_next _
  | busWriteAstat v => exact completesIff_next _
  | pmdWrite r v => exact finishWrite_completesIff (pmdWrite_isSome r v s)
  | pmdRead r => exact finishRead_completesIff (pmdRead_isSome r s) s
  | setMode bit v => exact execSetMode_completesIff bit v s
  | aluop f d x y => exact completesIff_next _
  | abs => exact completesIff_refused _

/-- Settles O7: arm by arm, the meaning completes where the admission function says so. -/
theorem admittedOperationsAreThoseThatComplete : Obligations.AdmittedOperationsAreThoseThatComplete :=
  exec_completesIff

/-- Settles O8: an operation completes or is refused, by O7, and neither answer is a fault. -/
theorem noOperationAnswersAFault : Obligations.NoOperationAnswersAFault := by
  intro i s f fault
  obtain ⟨completes, refuses⟩ := exec_completesIff i s
  cases admitted : i.wellFormed with
  | true =>
    obtain ⟨t, next⟩ := completes admitted
    cases fault.symm.trans next
  | false =>
    obtain ⟨r, refused⟩ := refuses admitted
    cases fault.symm.trans refused

/-! ### What the shared operations leave unchanged -/

/-- The fields that no computation writes: the shifter results, the mode bits, pc, the program and the outputs. -/
def SameControl (s t : State) : Prop :=
  t.SR0 = s.SR0 ∧ t.SR1 = s.SR1 ∧ t.mstat = s.mstat ∧ t.pc = s.pc ∧ t.program = s.program ∧ t.outputs = s.outputs

theorem writeDivide_sameControl (af ay0 : Word) (aq : Bool) (s : State) : SameControl s (writeDivide af ay0 aq s) := by
  simp [SameControl, writeDivide]

theorem writeResult_sameControl (d : MacDest) (res : Acc) (s : State) : SameControl s (writeResult d res s) := by
  cases d <;> simp [SameControl, writeResult, writeResultMr, writeResultMf]

theorem writeAlu_sameControl (o : AluOutcome) (d : AluDest) (s : State) : SameControl s (writeAlu o d s) := by
  cases d <;> simp [SameControl, writeAlu, writeAluDest]

@[simp] theorem writeDivide_draws (af ay0 : Word) (aq : Bool) (s : State) :
    (writeDivide af ay0 aq s).draws = s.draws := by
  simp [writeDivide]

@[simp] theorem writeAlu_draws (o : AluOutcome) (d : AluDest) (s : State) : (writeAlu o d s).draws = s.draws := by
  cases d <;> simp [writeAlu, writeAluDest]

/-- Only a result into MF takes a free value, its MV (R150). -/
theorem writeResult_draws (d : MacDest) (res : Acc) (s : State) :
    (writeResult d res s).draws = s.draws ∨ (writeResult d res s).draws = s.draws + 1 := by
  cases d <;> simp [writeResult, writeResultMr, writeResultMf]

/-! ### What any operation does to the control part of the state -/

/-- What an operation that completes does outside the registers and flags: pc advances, the program and the shifter
results stay, at most one word is handed out and one free value taken, and only SetMode writes a mode bit. -/
structure ControlStep (i : Instr) (s t : State) : Prop where
  pc : t.pc = s.pc + 1
  program : t.program = s.program
  SR0 : t.SR0 = s.SR0
  SR1 : t.SR1 = s.SR1
  outputs : t.outputs.length ≤ s.outputs.length + 1
  draws : t.draws ≤ s.draws + 1
  mstat : t.mstat = s.mstat ∨ ∃ bit value, i = .setMode bit value

theorem SameControl.controlStep {i : Instr} {s u : State} (h : SameControl s u) (draws : u.draws ≤ s.draws + 1) :
    ControlStep i s u.advance := by
  obtain ⟨hSR0, hSR1, hmstat, hpc, hprogram, houtputs⟩ := h
  exact ⟨congrArg (· + 1) hpc, hprogram, hSR0, hSR1, by simp [houtputs], draws, .inl hmstat⟩

theorem exec_controlStep {i : Instr} {s t : State} (h : exec i s = .next t) : ControlStep i s t := by
  obtain ⟨af, ay0, aq, rfl, -⟩ | ⟨d, res, rfl, -⟩ | ⟨w, rfl⟩ | ⟨w, rfl⟩ | ⟨a, rfl, -⟩ | ⟨m, rfl, -⟩ |
    ⟨a, v, rfl, -⟩ | ⟨m, b, v, rfl, hi⟩ | ⟨f, d, x, y, o, rfl, -⟩ := exec_next_cases h
  · exact (writeDivide_sameControl af ay0 aq s).controlStep (by simp)
  · exact (writeResult_sameControl d res s).controlStep (by have := writeResult_draws d res s; omega)
  · exact { pc := rfl, program := rfl, SR0 := rfl, SR1 := rfl, outputs := by simp, draws := by simp, mstat := .inl rfl }
  · exact { pc := rfl, program := rfl, SR0 := rfl, SR1 := rfl, outputs := by simp, draws := by simp, mstat := .inl rfl }
  · exact SameControl.controlStep (by simp [SameControl]) (by simp)
  · exact SameControl.controlStep (by simp [SameControl]) (by simp)
  · exact SameControl.controlStep (by simp [SameControl]) (by simp)
  · exact { pc := rfl, program := rfl, SR0 := rfl, SR1 := rfl, outputs := by simp, draws := by simp,
            mstat := .inr ⟨b, v, hi⟩ }
  · exact (writeAlu_sameControl o d s).controlStep (by simp)

/-- Settles O9: what every operation that completes does to pc and the program (R38, R69). -/
theorem operationsAdvancePcByOneAndKeepTheProgram : Obligations.OperationsAdvancePcByOneAndKeepTheProgram :=
  fun _ _ _ h => ⟨(exec_controlStep h).pc, (exec_controlStep h).program⟩

/-- Settles O20: no shared operation writes the shifter results, and of the operations only SetMode writes MSTAT. -/
theorem shifterResultsStayAndOnlySetModeChangesModes : Obligations.ShifterResultsStayAndOnlySetModeChangesModes :=
  fun _ _ _ h =>
    have control := exec_controlStep h
    ⟨control.SR0, control.SR1, fun changed => control.mstat.resolve_left changed⟩

/-! ### Runs -/

/-- A run of k + 1 steps that completes is a step and a run of k steps. -/
theorem run_succ_next {M : Host.Core} {k : Nat} {s t : M.State} (h : M.run (k + 1) s = .next t) :
    ∃ u, M.step s = .next u ∧ M.run k u = .next t := by
  unfold Host.Core.run at h
  split at h
  next u first => exact ⟨u, first, h⟩
  next => cases h
  next => cases h

/-- Settles O10: by induction on the number of steps, each of which is an operation of O9. -/
theorem runsAdvancePcAndKeepTheProgram : Obligations.RunsAdvancePcAndKeepTheProgram := by
  intro n
  induction n with
  | zero =>
    intro s t h
    cases h
    exact ⟨rfl, rfl⟩
  | succ k ih =>
    intro s t h
    obtain ⟨u, first, rest⟩ := run_succ_next h
    obtain ⟨i, -, executed⟩ := step_next first
    have control := exec_controlStep executed
    obtain ⟨pc, program⟩ := ih u t rest
    exact ⟨by rw [pc, control.pc]; omega, program.trans control.program⟩

/-- Settles O11: the place at pc was inside the program, so pc + 1 is at most its length, and the operation handed out
at most one word and took at most one free value (R38, R150, R173, R178, R182). -/
theorem stepKeepsTheRunInvariant : Obligations.StepKeepsTheRunInvariant := by
  intro s t ⟨_, outputs, draws⟩ h
  obtain ⟨i, place, executed⟩ := step_next h
  have inside := fetch_lt place
  have control := exec_controlStep executed
  refine ⟨?_, ?_, ?_⟩
  · rw [control.pc, control.program]
    exact inside
  · have := control.outputs
    rw [control.pc]
    omega
  · have := control.draws
    rw [control.pc]
    omega

/-- Settles O12: the launch state is closed, so the bounds are computed (R39). -/
theorem launchStateMeetsTheRunInvariant : Obligations.LaunchStateMeetsTheRunInvariant := by
  unfold Obligations.LaunchStateMeetsTheRunInvariant
  decide

end Sys2Proof.Machine
end

section
/-! The register banks (10_state.md section 4, rules R33 and R34). A change of the state that no view of the machine
shows, and that no write undoes, is carried through every operation; replacing the copy of the MAC or the ALU registers
that is not in use is such a change. -/

namespace Sys2Proof.Machine

/-! ### Changes an operation carries along -/

/-- The change f of s is out of an operation's sight: the views, flags, modes and the counter of free values, which are
all an operation reads, are as without it, and it commutes with each of the writes to state. -/
structure Unseen (f : State → State) (s : State) : Prop where
  alu : (f s).alu = s.alu
  mac : (f s).mac = s.mac
  SR0 : (f s).SR0 = s.SR0
  SR1 : (f s).SR1 = s.SR1
  astat : (f s).astat = s.astat
  mstat : (f s).mstat = s.mstat
  draws : (f s).draws = s.draws
  setAlu : ∀ a, (f s).setAlu a = f (s.setAlu a)
  setMac : ∀ m, (f s).setMac m = f (s.setMac m)
  setAstat : ∀ u a, (f u).setAstat a = f (u.setAstat a)
  setMstat : ∀ u m, (f u).setMstat m = f (u.setMstat m)
  advance : ∀ u, (f u).advance = f u.advance
  emit : ∀ u w, (f u).emit w = f (u.emit w)
  takeDraw : ∀ u, (f u).takeDraw = f u.takeDraw

namespace Unseen

variable {f : State → State} {s : State} (h : Unseen f s)
include h

/-! #### Operands -/

theorem busValue (r : Reg) : busValue r (f s) = busValue r s := by
  cases r <;> simp only [Machine.busValue, h.alu, h.mac, h.SR0, h.SR1]

theorem readAluXop (x : AluXop) : readAluXop x (f s) = readAluXop x s := by
  rw [readAluXop_eq, readAluXop_eq, h.busValue]

theorem readMacXop (x : MacXop) : readMacXop x (f s) = readMacXop x s := by
  rw [readMacXop_eq, readMacXop_eq, h.busValue]

theorem readAluYop (y : AluYop) : readAluYop y (f s) = readAluYop y s := by
  rw [readAluYop_eq, readAluYop_eq, h.busValue]

theorem readDivsYop (y : DivsYop) : readDivsYop y (f s) = readDivsYop y s := by
  rw [readDivsYop_eq, readDivsYop_eq, h.busValue]

theorem readMacYop (y : MacYop) : readMacYop y (f s) = readMacYop y s := by
  rw [readMacYop_eq, readMacYop_eq, h.busValue]

theorem dmdRead (r : Reg) : dmdRead r (f s) = dmdRead r s := by
  rw [dmdRead_eq, dmdRead_eq, h.busValue]

theorem pmdRead (r : Reg) : pmdRead r (f s) = pmdRead r s := by
  rw [pmdRead_eq, pmdRead_eq, h.busValue]

/-! #### Writes -/

theorem setMR (m : Acc) : (f s).setMR m = f (s.setMR m) := by
  rw [State.setMR, h.mac, h.setMac]; rfl

theorem dmdWrite (r : Reg) (v : Word) : dmdWrite r v (f s) = (dmdWrite r v s).map f := by
  cases r <;> simp only [Machine.dmdWrite, h.alu, h.mac, h.setAlu, h.setMac, h.setMR, Option.map_some, Option.map_none]

theorem pmdWrite (r : Reg) (v : Word) : pmdWrite r v (f s) = (pmdWrite r v s).map f := by
  cases r <;> simp only [Machine.pmdWrite, h.mac, h.setMac, Option.map_some, Option.map_none]

theorem writeDivide (af ay0 : Word) (aq : Bool) : writeDivide af ay0 aq (f s) = f (writeDivide af ay0 aq s) := by
  simp only [Machine.writeDivide, h.alu, h.astat, h.setAlu, h.setAstat]

theorem writeResult (d : MacDest) (res : Acc) : writeResult d res (f s) = f (writeResult d res s) := by
  cases d <;>
    simp only [Machine.writeResult, writeResultMr, writeResultMf, h.mac, h.astat, h.draws, h.setMac, h.setMR,
      h.setAstat, h.takeDraw]

theorem writeAlu (o : AluOutcome) (d : AluDest) : writeAlu o d (f s) = f (writeAlu o d s) := by
  cases d <;> simp only [Machine.writeAlu, writeAluDest, h.alu, h.astat, h.mstat, h.setAlu, h.setAstat]

/-! #### Operations -/

theorem finishRead (w : Option Word) : finishRead w (f s) = mapNext f (finishRead w s) := by
  cases w with
  | none => rfl
  | some w => simp only [Machine.finishRead, mapNext, h.emit, h.advance]

theorem finishWrite (u : Option State) : finishWrite (u.map f) = mapNext f (finishWrite u) := by
  cases u with
  | none => rfl
  | some t => simp only [Machine.finishWrite, Option.map_some, mapNext, h.advance]

theorem macCore (g : MacFunc) (r : Refusal) (d : MacDest) (x : MacXop) (y : MacYop) (fmt : Fmt) (c : Cond) :
    macCore g r d x y fmt c (f s) = mapNext f (macCore g r d x y fmt c s) := by
  simp only [Machine.macCore, h.readMacYop, h.readMacXop, h.mac, h.mstat, h.writeResult, h.advance]
  split
  · split <;> rfl
  · rfl

/-- An operation does with the change what it does without it, and carries the change along. -/
theorem exec (i : Instr) : exec i (f s) = mapNext f (exec i s) := by
  cases i with
  | divs y x =>
    simp only [Machine.exec, execDivs, h.readDivsYop, h.readAluXop, h.alu, h.writeDivide, h.advance]
    split <;> rfl
  | divq x =>
    simp only [Machine.exec, execDivq, h.readAluXop, h.alu, h.astat, h.writeDivide, h.advance, mapNext]
  | mul d x y fmt c => exact h.macCore _ _ d x y fmt c
  | macadd d x y fmt c => exact h.macCore _ _ d x y fmt c
  | macsub d x y fmt c => exact h.macCore _ _ d x y fmt c
  | mrclr c =>
    have cleared : writeResultMr 0 (f s) = f (writeResultMr 0 s) := h.writeResult .mr 0
    simp only [Machine.exec, execMrclr, cleared, h.advance]
    split <;> rfl
  | busRead r => simp only [Machine.exec, execBusRead, h.dmdRead, h.finishRead]
  | busReadAstat =>
    simp only [Machine.exec, execBusReadAstat, h.astat, h.draws, h.emit, h.takeDraw, h.advance, mapNext]
  | busWrite r v => simp only [Machine.exec, execBusWrite, h.dmdWrite, h.finishWrite]
  | busWriteMr2 v => simp only [Machine.exec, execBusWriteMr2, h.mac, h.setMR, h.advance, mapNext]
  | busWriteAstat v => simp only [Machine.exec, execBusWriteAstat, h.setAstat, h.advance, mapNext]
  | pmdWrite r v => simp only [Machine.exec, execPmdWrite, h.pmdWrite, h.finishWrite]
  | pmdRead r => simp only [Machine.exec, execPmdRead, h.pmdRead, h.finishRead]
  | setMode bit v =>
    simp only [Machine.exec, execSetMode, h.mstat, h.setMstat, h.advance]
    split <;> rfl
  | aluop n d x y =>
    simp only [Machine.exec, execAluop, aluWith, h.readAluXop, h.readAluYop, h.astat, h.writeAlu, h.advance, mapNext]
  | abs => rfl

end Unseen

/-! ### The MAC registers -/

theorem setAlu_withMacCopy (b : Bool) (m : MacRegs) (s : State) (a : AluRegs) :
    (s.withMacCopy b m).setAlu a = (s.setAlu a).withMacCopy b m := by
  cases b <;> cases inUse : s.mstat.bank && Config.aluRegsBanked <;>
    simp [State.withMacCopy, State.setAlu, State.setAluIn, inUse]

/-- The copy of the MAC registers that MSTAT.0 does not select is out of sight (R33). -/
theorem unseen_withMacCopy (s : State) (m : MacRegs) : Unseen (State.withMacCopy (!s.mstat.bank) m) s where
  alu := by cases s.mstat.bank <;> rfl
  mac := by cases bank : s.mstat.bank <;> simp [State.withMacCopy, State.mac, bank]
  SR0 := by cases s.mstat.bank <;> rfl
  SR1 := by cases s.mstat.bank <;> rfl
  astat := by cases s.mstat.bank <;> rfl
  mstat := by cases s.mstat.bank <;> rfl
  draws := by cases s.mstat.bank <;> rfl
  setAlu a := setAlu_withMacCopy _ m s a
  setMac n := by cases bank : s.mstat.bank <;> simp [State.withMacCopy, State.setMac, bank]
  setAstat u a := by cases s.mstat.bank <;> rfl
  setMstat u n := by cases s.mstat.bank <;> rfl
  advance u := by cases s.mstat.bank <;> rfl
  emit u w := by cases s.mstat.bank <;> rfl
  takeDraw u := by cases s.mstat.bank <;> rfl

theorem withMacCopy_self (b : Bool) (s : State) : s.withMacCopy b (s.macCopy b) = s := by
  cases b <;> rfl

theorem macCopy_withMacCopy (b : Bool) (m : MacRegs) (s : State) : (s.withMacCopy b m).macCopy b = m := by
  cases b <;> rfl

/-! ### The ALU registers -/

theorem setMac_withAluCopy (b : Bool) (a : AluRegs) (s : State) (m : MacRegs) :
    (s.withAluCopy b a).setMac m = (s.setMac m).withAluCopy b a := by
  cases b <;> cases bank : s.mstat.bank <;> simp [State.withAluCopy, State.setMac, bank]

/-- The copy of the ALU registers not in use is out of sight, banked or not (R34). -/
theorem unseen_withAluCopy (s : State) (a : AluRegs) :
    Unseen (State.withAluCopy (!(s.mstat.bank && Config.aluRegsBanked)) a) s where
  alu := by
    cases inUse : s.mstat.bank && Config.aluRegsBanked <;> simp [State.withAluCopy, State.alu, State.aluIn, inUse]
  mac := by cases s.mstat.bank && Config.aluRegsBanked <;> rfl
  SR0 := by cases s.mstat.bank && Config.aluRegsBanked <;> rfl
  SR1 := by cases s.mstat.bank && Config.aluRegsBanked <;> rfl
  astat := by cases s.mstat.bank && Config.aluRegsBanked <;> rfl
  mstat := by cases s.mstat.bank && Config.aluRegsBanked <;> rfl
  draws := by cases s.mstat.bank && Config.aluRegsBanked <;> rfl
  setAlu b := by
    cases inUse : s.mstat.bank && Config.aluRegsBanked <;>
      simp [State.withAluCopy, State.setAlu, State.setAluIn, inUse]
  setMac m := setMac_withAluCopy _ a s m
  setAstat u b := by cases s.mstat.bank && Config.aluRegsBanked <;> rfl
  setMstat u m := by cases s.mstat.bank && Config.aluRegsBanked <;> rfl
  advance u := by cases s.mstat.bank && Config.aluRegsBanked <;> rfl
  emit u w := by cases s.mstat.bank && Config.aluRegsBanked <;> rfl
  takeDraw u := by cases s.mstat.bank && Config.aluRegsBanked <;> rfl

theorem withAluCopy_self (b : Bool) (s : State) : s.withAluCopy b (s.aluCopy b) = s := by
  cases b <;> rfl

theorem aluCopy_withAluCopy (b : Bool) (a : AluRegs) (s : State) : (s.withAluCopy b a).aluCopy b = a := by
  cases b <;> rfl

/-! ### Noninterference -/

/-- An operation from a state that the unseen change leaves as it is ends in one that the change leaves as it is. -/
theorem Unseen.next_eq {f : State → State} {s t : State} {i : Instr} (h : Unseen f s) (same : f s = s)
    (next : Machine.exec i s = .next t) : t = f t := by
  have carried := h.exec i
  rw [same, next] at carried
  exact Host.Outcome.next.inj carried

/-- SetMode 0 moves no data and selects the copy the next operation uses (R33, R180). -/
theorem exec_setMode_bank (b : Bool) (s : State) :
    ∃ t, exec (.setMode 0 b) s = .next t ∧ t.macPrimary = s.macPrimary ∧ t.macSecondary = s.macSecondary ∧
      t.mac = s.macCopy b :=
  ⟨_, rfl, rfl, rfl, rfl⟩

/-- Settles O13: replacing the unselected copy is carried through; replacing it by itself shows that it is kept. -/
theorem unselectedMacBankIsNeitherReadNorWritten : Obligations.UnselectedMacBankIsNeitherReadNorWritten := by
  intro i s
  refine ⟨fun t next => ?_, fun m => (unseen_withMacCopy s m).exec i, fun b => exec_setMode_bank b s⟩
  have kept := (unseen_withMacCopy s _).next_eq (withMacCopy_self (!s.mstat.bank) s) next
  rw [kept, macCopy_withMacCopy]

/-- Settles O14: as O13, for the copy of the ALU registers that is not in use. -/
theorem aluCopyNotInUseIsNeitherReadNorWritten : Obligations.AluCopyNotInUseIsNeitherReadNorWritten := by
  intro i s unused
  refine ⟨fun t next => ?_, fun a => (unseen_withAluCopy s a).exec i⟩
  have kept := (unseen_withAluCopy s _).next_eq (withAluCopy_self unused s) next
  rw [kept, aluCopy_withAluCopy]

end Sys2Proof.Machine
end

section
/-! Which operations write the flags and the feedback registers (40_alu_status_overflow_latch.md, 42_mac.md section 2,
43_register_access.md section 3), and the abstract ALU operation with the overflow latch (rules R101 to R106). -/

namespace Sys2Proof.Machine

/-! ### The ALU flags and MV -/

/-- Settles O17: of the ways an operation can change ASTAT, only those of ALUOP and a bus write of ASTAT reach AZ, AN,
AC and AV (R104, R108, R109). -/
theorem onlyAluOperationsAndAstatWritesChangeAluFlags : Obligations.OnlyAluOperationsAndAstatWritesChangeAluFlags := by
  intro i s t h changed
  obtain keep | ⟨⟨aq, div⟩, -⟩ | ⟨⟨mv, mac⟩, -⟩ | ⟨-, alu⟩ | write := exec_astat_cases h
  · simp [keep] at changed
  · simp [div] at changed
  · simp [mac] at changed
  · exact .inl alu
  · exact .inr write

/-- Settles O18: of the ways an operation can change ASTAT, only those of the MAC operations and a bus write of ASTAT
reach MV (R148, R174, R179). -/
theorem onlyMacOperationsAndAstatWritesChangeMv : Obligations.OnlyMacOperationsAndAstatWritesChangeMv := by
  intro i s t h changed
  obtain keep | ⟨⟨aq, div⟩, -⟩ | ⟨-, mac | clear⟩ | ⟨⟨o, alu⟩, -⟩ | write := exec_astat_cases h
  · exact absurd (by rw [keep]) changed
  · exact absurd (by rw [div]) changed
  · exact .inl mac
  · exact .inr (.inl clear)
  · exact absurd (by rw [alu, aluFlags_MV]) changed
  · exact .inr (.inr write)

/-! ### AV under the latch -/

theorem aluFlags_AV (latch : Bool) (o : AluOutcome) (a : Astat) :
    (aluFlags latch o a).AV = if o.writes.AV then avAfter latch a.AV o.ov else a.AV := rfl

/-- In latch mode no ALU function clears a set AV (R102). -/
theorem aluFlags_AV_of_latched {o : AluOutcome} {a : Astat} (set : a.AV = true) : (aluFlags true o a).AV = true := by
  rw [aluFlags_AV, avAfter_latched, set, Bool.true_or, ite_self]

/-- Settles O21: only ALUOP and a bus write of ASTAT reach AV, by O17, and in latch mode ALUOP leaves it set (R102,
R103). -/
theorem latchedAvIsClearedOnlyByAnAstatWrite : Obligations.LatchedAvIsClearedOnlyByAnAstatWrite := by
  intro i s t latch set h cleared
  obtain keep | ⟨⟨aq, div⟩, -⟩ | ⟨⟨mv, mac⟩, -⟩ | ⟨⟨o, alu⟩, -⟩ | write := exec_astat_cases h
  · simp [keep, set] at cleared
  · simp [div, set] at cleared
  · simp [mac, set] at cleared
  · rw [alu, latch, aluFlags_AV_of_latched set] at cleared
    cases cleared
  · exact write

/-- The flags after the ALU operation, its operands by the registers they name. -/
theorem aluWith_astat (f : AluFunction) (d : AluDest) (x : AluXop) (y : AluYop) (s : State) :
    (aluWith f d x y s).astat =
      aluFlags s.mstat.latch (f (busValue x.reg s) (busValue y.reg s) s.astat.AC) s.astat := by
  rw [← readAluXop_eq, ← readAluYop_eq]
  rfl

/-- Settles O22: in latch mode AV, if written, becomes AV or ov (R102). -/
theorem latchModeOrsTheOverflowIntoAv : Obligations.LatchModeOrsTheOverflowIntoAv := by
  intro d x y s latch
  refine ⟨fun f => ⟨?_, fun set => ?_⟩, fun n => rfl⟩
  · rw [aluWith_astat, latch, aluFlags_AV, avAfter_latched]
  · rw [aluWith_astat, latch, aluFlags_AV_of_latched set]

/-- Settles O23: with the latch off AV, if written, becomes ov (R101). -/
theorem withoutLatchAvFollowsTheOverflow : Obligations.WithoutLatchAvFollowsTheOverflow := by
  intro d x y s latch
  refine ⟨fun f => ?_, fun n => rfl⟩
  rw [aluWith_astat, latch, aluFlags_AV, avAfter_unlatched]

/-! ### The abstract ALU operation -/

theorem avAfter_eq (latch av ov : Bool) : avAfter latch av ov = (ov || (latch && av)) := by
  cases latch <;> simp [Bool.or_comm]

/-- AZ, where it is written, says whether the result is zero, and AN whether its bit 15 is set (R104). -/
theorem aluFlags_AZ (latch : Bool) (o : AluOutcome) (a : Astat) :
    (aluFlags latch o a).AZ = if o.writes.AZ then decide (o.result.toNat = 0) else a.AZ := by
  have zero : (o.result == 0#16) = decide (o.result.toNat = 0) := by
    rw [Bool.eq_iff_iff]
    simp [BitVec.toNat_eq]
  rw [← zero]
  rfl

theorem aluFlags_AN (latch : Bool) (o : AluOutcome) (a : Astat) :
    (aluFlags latch o a).AN = if o.writes.AN then decide (2 ^ 15 ≤ o.result.toNat) else a.AN :=
  congrArg (if o.writes.AN then · else a.AN) (BitVec.msb_eq_decide o.result)

theorem aluWith_eq (f : AluFunction) (d : AluDest) (x : AluXop) (y : AluYop) (s : State) :
    let o := f (busValue x.reg s) (busValue y.reg s) s.astat.AC
    aluWith f d x y s =
      { s.setAlu (match d with
          | .ar => { s.alu with AR := o.result }
          | .af => { s.alu with AF := o.result }) with
        astat := aluFlags s.mstat.latch o s.astat, pc := s.pc + 1 } := by
  intro o
  simp only [aluWith, readAluXop_eq, readAluYop_eq]
  cases d <;> simp [writeAlu, writeAluDest, State.setAstat, State.advance, o]

/-- Settles O24: the next state as one record, and each of the four flags it writes (R104, R106). -/
theorem aluOperationWritesResultAndMaskedFlags : Obligations.AluOperationWritesResultAndMaskedFlags := by
  intro f d x y s o
  refine ⟨aluWith (Config.aluFunction f) d x y s, rfl, ?_, ?_, ?_, ?_, ?_⟩
  · rw [aluWith_astat, aluFlags_AZ]
  · rw [aluWith_astat, aluFlags_AN]
  · rw [aluWith_astat]; rfl
  · rw [aluWith_astat, aluFlags_AV, avAfter_eq]
  · rw [aluWith_eq]; rfl

/-! ### AF and MF -/

theorem setAlu_AF {s : State} {a : AluRegs} (h : a.AF = s.alu.AF) :
    (s.setAlu a).aluPrimary.AF = s.aluPrimary.AF ∧ (s.setAlu a).aluSecondary.AF = s.aluSecondary.AF := by
  cases inUse : s.mstat.bank && Config.aluRegsBanked <;> simp [inUse, h, State.alu, State.aluIn]

theorem setMac_MF {s : State} {m : MacRegs} (h : m.MF = s.mac.MF) :
    (s.setMac m).macPrimary.MF = s.macPrimary.MF ∧ (s.setMac m).macSecondary.MF = s.macSecondary.MF := by
  cases bank : s.mstat.bank <;> simp [bank, h, State.mac]

theorem writeAlu_ar_AF (o : AluOutcome) (s : State) :
    (writeAlu o .ar s).aluPrimary.AF = s.aluPrimary.AF ∧ (writeAlu o .ar s).aluSecondary.AF = s.aluSecondary.AF :=
  setAlu_AF (a := { s.alu with AR := o.result }) rfl

theorem writeResultMr_MF (res : Acc) (s : State) :
    (writeResultMr res s).macPrimary.MF = s.macPrimary.MF ∧
      (writeResultMr res s).macSecondary.MF = s.macSecondary.MF :=
  setMac_MF (m := { s.mac with MR := res }) rfl

/-- AF, in either copy, is kept by all operations but the division primitives and ALUOP into AF (R176). -/
theorem exec_AF_cases {i : Instr} {s t : State} (h : exec i s = .next t) :
    (t.aluPrimary.AF = s.aluPrimary.AF ∧ t.aluSecondary.AF = s.aluSecondary.AF) ∨
      (∃ y x, i = .divs y x) ∨ (∃ x, i = .divq x) ∨ ∃ f x y, i = .aluop f .af x y := by
  obtain ⟨af, ay0, aq, rfl, divs | divq⟩ | ⟨d, res, rfl, -⟩ | ⟨w, rfl⟩ | ⟨w, rfl⟩ | ⟨a, rfl, ha⟩ | ⟨m, rfl, -⟩ |
    ⟨a, v, rfl, -⟩ | ⟨m, b, v, rfl, -⟩ | ⟨f, d, x, y, o, rfl, hi⟩ := exec_next_cases h
  · exact .inr (.inl divs)
  · exact .inr (.inr (.inl divq))
  · exact .inl (by cases d <;> simp [writeResult, writeResultMr, writeResultMf])
  · exact .inl ⟨rfl, rfl⟩
  · exact .inl ⟨rfl, rfl⟩
  · exact .inl (setAlu_AF ha)
  · exact .inl (by simp)
  · exact .inl ⟨rfl, rfl⟩
  · exact .inl ⟨rfl, rfl⟩
  · cases d with
    | ar => exact .inl (writeAlu_ar_AF o s)
    | af => exact .inr (.inr (.inr ⟨f, x, y, hi⟩))

/-- MF, in either copy, is kept by all operations but the MAC operations into MF (R176). -/
theorem exec_MF_cases {i : Instr} {s t : State} (h : exec i s = .next t) :
    (t.macPrimary.MF = s.macPrimary.MF ∧ t.macSecondary.MF = s.macSecondary.MF) ∨
      ∃ x y f c, i = .mul .mf x y f c ∨ i = .macadd .mf x y f c ∨ i = .macsub .mf x y f c := by
  obtain ⟨af, ay0, aq, rfl, -⟩ | ⟨d, res, rfl, hi⟩ | ⟨w, rfl⟩ | ⟨w, rfl⟩ | ⟨a, rfl, -⟩ | ⟨m, rfl, hm⟩ |
    ⟨a, v, rfl, -⟩ | ⟨m, b, v, rfl, -⟩ | ⟨f, d, x, y, o, rfl, -⟩ := exec_next_cases h
  · exact .inl (by simp [writeDivide])
  · cases d with
    | mr => exact .inl (writeResultMr_MF res s)
    | mf => exact .inr (hi.resolve_right fun clear => nomatch clear.1)
  · exact .inl ⟨rfl, rfl⟩
  · exact .inl ⟨rfl, rfl⟩
  · exact .inl (by simp)
  · exact .inl (setMac_MF hm)
  · exact .inl ⟨rfl, rfl⟩
  · exact .inl ⟨rfl, rfl⟩
  · exact .inl (by cases d <;> simp [writeAlu, writeAluDest])

/-- Settles O19: an operation that is none of the writers keeps the register in both copies. -/
theorem onlyComputationsChangeAfAndMf : Obligations.OnlyComputationsChangeAfAndMf := by
  intro i s t h
  exact ⟨fun changed => (exec_AF_cases h).resolve_left fun kept => changed.elim (· kept.1) (· kept.2),
    fun changed => (exec_MF_cases h).resolve_left fun kept => changed.elim (· kept.1) (· kept.2)⟩

end Sys2Proof.Machine
end

section
/-! The division primitives (41_alu_divide.md rules R123 to R127): the next state of DIVS and DIVQ as one record, the
shift and the quotient bit with numbers, and DIVQ as a step of non-restoring division. -/

namespace Sys2Proof.Machine

/-! ### What the two primitives write -/

@[simp] theorem writeDivide_alu (af ay0 : Word) (aq : Bool) (s : State) :
    (writeDivide af ay0 aq s).alu = { s.alu with AF := af, AY0 := ay0 } := by
  simp [writeDivide]

/-- The next state of both primitives: AF, AY0 and AQ are written, pc advances, and nothing else changes (R108). -/
theorem writeDivide_frame (af ay0 : Word) (aq : Bool) (s : State) :
    let t := (writeDivide af ay0 aq s).advance
    t = { s.setAlu { s.alu with AF := t.alu.AF, AY0 := t.alu.AY0 } with
          astat := { s.astat with AQ := t.astat.AQ }, pc := s.pc + 1 } := by
  simp only [State.advance_alu, writeDivide_alu, State.advance_astat, writeDivide_astat]
  simp [writeDivide, State.setAstat, State.advance]

theorem writeDivide_advance_AF (af ay0 : Word) (aq : Bool) (s : State) :
    (writeDivide af ay0 aq s).advance.alu.AF = af := by simp

theorem writeDivide_advance_AY0 (af ay0 : Word) (aq : Bool) (s : State) :
    (writeDivide af ay0 aq s).advance.alu.AY0 = ay0 := by simp

theorem msb_eq_bit15 (v : Word) : v.msb = v.getLsbD 15 := BitVec.msb_eq_getLsbD_last v

theorem msb_eq_decide_toNat (v : Word) : v.msb = decide (2 ^ 15 ≤ v.toNat) := BitVec.msb_eq_decide v

theorem shiftIn_bit0 (v : Word) (b : Bool) : (shiftIn v b).getLsbD 0 = b := by
  rw [shiftIn, BitVec.getLsbD_append]
  simp

/-! ### DIVS -/

/-- Settles O25: AQ is the exclusive-or of the two signs, and the pair yop:AY0 moves up by one bit (R123). -/
theorem divsShiftsTheDividendAndSetsTheSign : Obligations.DivsShiftsTheDividendAndSetsTheSign := by
  intro y x s hy
  have admitted : y.admitted = true := by obtain rfl | rfl := hy <;> rfl
  refine ⟨_, execDivs_admitted x s admitted, ?_, ?_, ?_⟩
  · simp [msb_eq_bit15]
  · simpa using shiftIn_pair (busValue y.reg s) s.alu.AY0 _
  · exact writeDivide_frame _ _ _ s

/-- Settles O26: AY0 and code 3 are no dividend (R83). -/
theorem divsOfAnotherYopIsRefused : Obligations.DivsOfAnotherYopIsRefused := by
  intro y x s notAy1 notAf
  cases y with
  | ay0 | zero => rfl
  | ay1 => exact absurd rfl notAy1
  | af => exact absurd rfl notAf

/-! ### DIVQ -/

/-- DIVQ, its divisor by the register xop names (R126). -/
theorem exec_divq (x : AluXop) (s : State) :
    let r := divqAlu s.astat.AQ s.alu.AF (busValue x.reg s)
    let q := (busValue x.reg s).msb ^^ r.msb
    exec (.divq x) s = .next (writeDivide (shiftIn r s.alu.AY0.msb) (shiftIn s.alu.AY0 (!q)) q s).advance := by
  rw [← readAluXop_eq]
  rfl

theorem divqAlu_toNat (aq : Bool) (a x : Word) :
    (divqAlu aq a x).toNat = (if aq then a.toNat + x.toNat else a.toNat + 2 ^ 16 - x.toNat) % 2 ^ 16 := by
  have := x.isLt
  cases aq with
  | true => exact BitVec.toNat_add a x
  | false =>
    have sub : (divqAlu false a x).toNat = (2 ^ 16 - x.toNat + a.toNat) % 2 ^ 16 := BitVec.toNat_sub a x
    rw [sub, if_neg Bool.false_ne_true]
    omega

/-- Settles O27: with r the adder's word, the pair r:AY0 moves up by one bit (R126). -/
theorem divqAddsOrSubtractsAndShifts : Obligations.DivqAddsOrSubtractsAndShifts := by
  intro x s
  refine ⟨_, exec_divq x s, (divqAlu s.astat.AQ s.alu.AF (busValue x.reg s)).toNat, divqAlu_toNat _ _ _, ?_, ?_, ?_⟩
  · simp [msb_eq_decide_toNat]
  · simpa using shiftIn_pair (divqAlu s.astat.AQ s.alu.AF (busValue x.reg s)) s.alu.AY0 _
  · exact writeDivide_frame _ _ _ s

/-! ### DIVQ as a step of non-restoring division -/

/-- AF and AQ as the signed partial remainder they stand for. -/
def signedRemainder (aq : Bool) (af : Word) : Int := if aq then (af.toNat : Int) - 2 ^ 16 else af.toNat

theorem partialRemainder_eq (s : State) : partialRemainder s = signedRemainder s.astat.AQ s.alu.AF := rfl

/-- The adder's word is the signed number P + d or P - d: in the range of a division it fits 16 bits (R134). -/
theorem divqAlu_toInt {aq : Bool} {a x : Word} (divisor : (x.toNat : Int) < 2 ^ 15)
    (lower : -2 * (x.toNat : Int) ≤ signedRemainder aq a) (upper : signedRemainder aq a < 2 * (x.toNat : Int)) :
    (divqAlu aq a x).toInt =
      if aq then signedRemainder aq a + x.toNat else signedRemainder aq a - x.toNat := by
  have := a.isLt
  rw [BitVec.toInt_eq_toNat_cond, divqAlu_toNat]
  cases aq <;> simp only [signedRemainder, if_true, Bool.false_eq_true, if_false] at lower upper ⊢ <;> split <;> omega

/-- The shifted word, with the sign of the word before the shift, is twice the signed number and the bit shifted in. -/
theorem signedRemainder_shiftIn (v : Word) (b : Bool) :
    signedRemainder v.msb (shiftIn v b) = 2 * v.toInt + b.toNat := by
  have := v.isLt
  rw [signedRemainder, shiftIn_toNat, BitVec.toInt_eq_toNat_cond, msb_eq_decide_toNat]
  simp only [decide_eq_true_eq]
  split <;> split <;> omega

/-- Adding or subtracting the divisor towards 0 halves the range of the remainder. -/
theorem signedRemainder_towards_zero {aq : Bool} {a : Word} {d r : Int} (lower : -2 * d ≤ signedRemainder aq a)
    (upper : signedRemainder aq a < 2 * d)
    (step : r = if aq then signedRemainder aq a + d else signedRemainder aq a - d) : -d ≤ r ∧ r < d := by
  have := a.isLt
  subst step
  cases aq <;> simp only [signedRemainder, if_true, Bool.false_eq_true, if_false] at lower upper ⊢ <;> omega

/-- Settles O28: the adder's word v is the signed P ± d, its sign is the new AQ since the divisor is positive, and the
shift makes of it its double and the next dividend bit. -/
theorem divqIsOneNonRestoringStep : Obligations.DivqIsOneNonRestoringStep := by
  intro x s d p r positive small lower upper
  have next := exec_divq x s
  have signed : (divqAlu s.astat.AQ s.alu.AF (busValue x.reg s)).toInt = r := divqAlu_toInt small lower upper
  generalize divqAlu s.astat.AQ s.alu.AF (busValue x.reg s) = v at next signed
  have divisorSign : (busValue x.reg s).msb = false := by
    rw [msb_eq_decide_toNat, decide_eq_false_iff_not]
    omega
  simp only [divisorSign, Bool.false_xor] at next
  have remainder :
      partialRemainder (writeDivide (shiftIn v s.alu.AY0.msb) (shiftIn s.alu.AY0 (!v.msb)) v.msb s).advance =
        2 * r + (s.alu.AY0.getLsbD 15).toNat := by
    rw [partialRemainder_eq, writeDivide_advance_AF, ← signed, ← msb_eq_bit15]
    exact signedRemainder_shiftIn v _
  have range : -d ≤ r ∧ r < d := signedRemainder_towards_zero lower upper rfl
  have bit := Bool.toNat_le (s.alu.AY0.getLsbD 15)
  refine ⟨_, next, remainder, by omega, by omega, ?_, ?_⟩
  · rw [writeDivide_advance_AY0, shiftIn_bit0, BitVec.msb_eq_toInt, signed, ← decide_not, decide_eq_decide, not_lt]
  · have := Bool.toNat_le (!v.msb)
    rw [writeDivide_advance_AY0, shiftIn_toNat]
    omega

/-! ### A divisor of zero -/

theorem divqAlu_zero (aq : Bool) (a : Word) : divqAlu aq a 0 = a := by
  cases aq with
  | true => exact BitVec.add_zero a
  | false => exact BitVec.sub_zero a

/-- DIVQ by zero only shifts: AF stays what it is before the shift, and its sign becomes AQ (R127). -/
theorem exec_divq_zero {x : AluXop} {s : State} (zero : busValue x.reg s = 0) :
    exec (.divq x) s =
      .next (writeDivide (shiftIn s.alu.AF s.alu.AY0.msb) (shiftIn s.alu.AY0 (!s.alu.AF.msb)) s.alu.AF.msb
        s).advance := by
  have sign : (0 : Word).msb = false := rfl
  simp only [exec_divq, zero, divqAlu_zero, sign, Bool.false_xor]

/-- DIVS by zero takes the sign of the dividend (R124). -/
theorem exec_divs_zero {y : DivsYop} {x : AluXop} {s : State} (hy : y.admitted = true) (zero : busValue x.reg s = 0) :
    ∃ t, exec (.divs y x) s = .next t ∧ t.astat = { s.astat with AQ := (busValue y.reg s).getLsbD 15 } := by
  refine ⟨_, execDivs_admitted x s hy, ?_⟩
  rw [State.advance_astat, writeDivide_astat, zero, ← msb_eq_bit15]
  exact congrArg (fun aq => { s.astat with AQ := aq }) (Bool.false_xor _)

/-- Settles O29: the sign of a divisor of zero is 0 and adding or subtracting it changes nothing (R124, R127). -/
theorem divisionByZeroCompletes : Obligations.DivisionByZeroCompletes := by
  intro x s zero
  refine ⟨exec_divs_zero (y := .ay1) rfl zero, exec_divs_zero (y := .af) rfl zero, _, exec_divq_zero zero, ?_, ?_⟩
  · rw [State.advance_astat, writeDivide_astat, msb_eq_bit15]
  · rw [writeDivide_advance_AF, shiftIn_toNat, msb_eq_bit15]

end Sys2Proof.Machine
end

section
/-! The multiplier-accumulator (42_mac.md rules R142 to R154): the next state for each destination as one record, the
40-bit result with numbers, the bits of the presented product in fractional mode, and the forms that are refused. -/

namespace Sys2Proof.Machine

/-! ### Where the result goes -/

theorem writeResult_mr_advance_MR (res : Acc) (s : State) : (writeResult .mr res s).advance.mac.MR = res := by
  simp [writeResult, writeResultMr]

theorem writeResult_mr_advance_MV (res : Acc) (s : State) : (writeResult .mr res s).advance.astat.MV = mvOf res := rfl

theorem writeResult_mf_advance_MF (res : Acc) (s : State) : (writeResult .mf res s).advance.mac.MF = mr1 res := by
  simp [writeResult, writeResultMf]

/-- The next state with destination MR: MR and MV are written, pc advances, and nothing else changes (R148, R149). -/
theorem writeResult_mr_advance (res : Acc) (s : State) :
    (writeResult .mr res s).advance =
      { s.setMac { s.mac with MR := res } with astat := { s.astat with MV := mvOf res }, pc := s.pc + 1 } := by
  simp [writeResult, writeResultMr, State.setMR, State.setAstat, State.advance]

/-- The next state with destination MF: MF and MV are written, a free value is taken, pc advances, and nothing else
changes (R150). -/
theorem writeResult_mf_advance (res : Acc) (s : State) :
    (writeResult .mf res s).advance =
      { s.setMac { s.mac with MF := mr1 res } with
        astat := { s.astat with MV := Config.freeBit s.draws }, pc := s.pc + 1, draws := s.draws + 1 } := by
  simp [writeResult, writeResultMf, State.setAstat, State.takeDraw, State.advance]

/-- An operation that writes `res` to MR has the effect and the frame of R148 and R149. -/
theorem writesMr_of_exec {i : Instr} {s : State} {res : Acc} {n : Int}
    (next : exec i s = .next (writeResult .mr res s).advance) (value : res.toInt = n) :
    WritesMr i s fun t => t.mac.MR.toInt = n := by
  refine ⟨_, next, ?_, ?_, ?_⟩
  · exact (congrArg BitVec.toInt (writeResult_mr_advance_MR res s)).trans value
  · rw [writeResult_mr_advance_MR, writeResult_mr_advance_MV]
    exact mvOf_iff res
  · rw [writeResult_mr_advance_MR, writeResult_mr_advance_MV]
    exact writeResult_mr_advance res s

theorem mr1_ofInt_toNat (n : Int) : ((mr1 (BitVec.ofInt 40 n)).toNat : Int) = n / 2 ^ 16 % 2 ^ 16 := by
  rw [mr1_toNat, BitVec.toNat_ofInt]
  omega

/-- An operation that writes `res` to MF has the effect and the frame of R150. -/
theorem writesMf_of_exec {i : Instr} {s : State} {res : Acc} {n : Int}
    (next : exec i s = .next (writeResult .mf res s).advance) (value : res = BitVec.ofInt 40 n) : WritesMf i s n := by
  refine ⟨_, next, ?_, ?_⟩
  · rw [writeResult_mf_advance_MF, value, mr1_ofInt_toNat]
  · rw [writeResult_mf_advance_MF]
    exact writeResult_mf_advance res s

/-! ### The three functions of the adder -/

theorem admitted_of_ne_zero {y : MacYop} (hy : y ≠ .zero) : y.admitted = true := by
  cases y with
  | zero => exact absurd rfl hy
  | my0 | my1 | mf => rfl

/-- The result of a MAC operation in state s, its operands by the registers they name (R142 to R147). -/
def resultIn (g : MacFunc) (x : MacXop) (y : MacYop) (f : Fmt) (s : State) : Acc :=
  macResult Config.macUuExtension g s.mstat.integer f s.mac.MR (busValue x.reg s) (busValue y.reg s)

section
variable {y : MacYop} (hy : y ≠ .zero) (d : MacDest) (x : MacXop) (f : Fmt) (s : State)
include hy

theorem exec_mul : exec (.mul d x y f Cond.always) s = .next (writeResult d (resultIn .mul x y f s) s).advance :=
  macCore_admitted .mul _ d x f s (admitted_of_ne_zero hy)

theorem exec_macadd :
    exec (.macadd d x y f Cond.always) s = .next (writeResult d (resultIn .add x y f s) s).advance :=
  macCore_admitted .add _ d x f s (admitted_of_ne_zero hy)

theorem exec_macsub :
    exec (.macsub d x y f Cond.always) s = .next (writeResult d (resultIn .sub x y f s) s).advance :=
  macCore_admitted .sub _ d x f s (admitted_of_ne_zero hy)

end

/-- Settles O30: MUL passes the presented product on (R151). -/
theorem mulIntoMrIsThePresentedProduct : Obligations.MulIntoMrIsThePresentedProduct :=
  fun x _ f s hy => writesMr_of_exec (exec_mul hy .mr x f s) (macResult_mul_toInt ..)

/-- Settles O31: MACADD adds the presented product to MR (R152). -/
theorem macaddIntoMrAddsThePresentedProduct : Obligations.MacaddIntoMrAddsThePresentedProduct :=
  fun x _ f s hy => writesMr_of_exec (exec_macadd hy .mr x f s) (macResult_add_toInt ..)

/-- Settles O32: MACSUB subtracts the presented product from MR (R153). -/
theorem macsubIntoMrSubtractsThePresentedProduct : Obligations.MacsubIntoMrSubtractsThePresentedProduct :=
  fun x _ f s hy => writesMr_of_exec (exec_macsub hy .mr x f s) (macResult_sub_toInt ..)

/-- Settles O33: the result goes to MF, and bits 31 to 16 of a 40-bit number are those of the number before the wrap. -/
theorem macOperationsIntoMfKeepMr : Obligations.MacOperationsIntoMfKeepMr := by
  intro x y f s hy p
  refine ⟨writesMf_of_exec (exec_mul hy .mf x f s) (macResult_mul ..),
    writesMf_of_exec (exec_macadd hy .mf x f s) ?_, writesMf_of_exec (exec_macsub hy .mf x f s) ?_⟩
  · exact BitVec.eq_of_toInt_eq ((macResult_add_toInt ..).trans (BitVec.toInt_ofInt ..).symm)
  · exact BitVec.eq_of_toInt_eq ((macResult_sub_toInt ..).trans (BitVec.toInt_ofInt ..).symm)

/-- Settles O34: the product's factors and its bounds (R142, R143). -/
theorem productsFitThePort : Obligations.ProductsFitThePort := by
  intro f x y xv yv
  obtain ⟨lower, upper, signed, unsigned⟩ := macProduct_bounds f x y
  exact ⟨macProduct_eq f x y, fun notUu => ⟨lower, signed notUu⟩, fun uu => ⟨unsigned uu, upper⟩⟩

/-! ### Fractional mode -/

theorem macResult_add (e : UuExtension) (i : Bool) (f : Fmt) (acc : Acc) (x y : Word) :
    macResult e .add i f acc x y = acc + BitVec.ofInt 40 (presentedProduct e i f x y) := by
  simp only [macResult, scaled_eq_presented]

theorem macResult_sub (e : UuExtension) (i : Bool) (f : Fmt) (acc : Acc) (x y : Word) :
    macResult e .sub i f acc x y = acc - BitVec.ofInt 40 (presentedProduct e i f x y) := by
  simp only [macResult, scaled_eq_presented]

/-- In fractional mode the presented product is twice a number with the low 32 bits of the port's product (R144,
R146): MAC_UU_EXTENSION changes that number by a multiple of 2^32 only. -/
theorem presentedProduct_fractional (e : UuExtension) (f : Fmt) (x y : Word) :
    ∃ q : Int, presentedProduct e false f x y = 2 * q ∧
      q % 2 ^ 32 = presentedProduct .zero true f x y % 2 ^ 32 := by
  refine ⟨presentedProduct e true f x y, rfl, ?_⟩
  simp only [presentedProduct, if_true, reduceCtorEq, false_and, and_false, if_false, ← macProduct_eq]
  split
  · omega
  · rfl

/-- Twice a number is its bits one place up, with 0 at the bottom. -/
theorem ofInt_double_bits {q p : Int} (same : q % 2 ^ 32 = p % 2 ^ 32) :
    (BitVec.ofInt 40 (2 * q)).getLsbD 0 = false ∧
      ∀ j < 32, (BitVec.ofInt 40 (2 * q)).getLsbD (j + 1) = (BitVec.ofInt 32 p).getLsbD j := by
  have shifted : BitVec.ofInt 40 (2 * q) = BitVec.ofInt 40 q <<< 1 := by
    apply BitVec.eq_of_toNat_eq
    rw [BitVec.toNat_shiftLeft, Nat.shiftLeft_eq, BitVec.toNat_ofInt, BitVec.toNat_ofInt]
    omega
  have low : (BitVec.ofInt 40 q).setWidth 32 = BitVec.ofInt 32 p := by
    apply BitVec.eq_of_toNat_eq
    rw [BitVec.toNat_setWidth, BitVec.toNat_ofInt, BitVec.toNat_ofInt]
    omega
  refine ⟨by simp [shifted], fun j hj => ?_⟩
  rw [shifted, ← low, BitVec.getLsbD_setWidth]
  simp [hj]
  omega

/-- Settles O35: the presented product is the port's product one place up, and all three functions, into either
destination, use it (R144). -/
theorem fractionalModeShiftsTheProductLeftByOne : Obligations.FractionalModeShiftsTheProductLeftByOne := by
  intro x y f s hy fractional p
  obtain ⟨q, double, same⟩ :=
    presentedProduct_fractional Config.macUuExtension f (busValue x.reg s) (busValue y.reg s)
  obtain ⟨bit0, bits⟩ := ofInt_double_bits same
  have mul : resultIn .mul x y f s = BitVec.ofInt 40 (2 * q) := by
    rw [resultIn, macResult_mul, fractional, double]
  have add : resultIn .add x y f s = s.mac.MR + BitVec.ofInt 40 (2 * q) := by
    rw [resultIn, macResult_add, fractional, double]
  have sub : resultIn .sub x y f s = s.mac.MR - BitVec.ofInt 40 (2 * q) := by
    rw [resultIn, macResult_sub, fractional, double]
  refine ⟨BitVec.ofInt 40 (2 * q), bit0, bits, ⟨_, exec_mul hy .mr x f s, ?_⟩, ⟨_, exec_macadd hy .mr x f s, ?_⟩,
    ⟨_, exec_macsub hy .mr x f s, ?_⟩, ⟨_, exec_mul hy .mf x f s, ?_⟩, ⟨_, exec_macadd hy .mf x f s, ?_⟩,
    ⟨_, exec_macsub hy .mf x f s, ?_⟩⟩
  · rw [writeResult_mr_advance_MR, mul]
  · rw [writeResult_mr_advance_MR, add]
  · rw [writeResult_mr_advance_MR, sub]
  · rw [writeResult_mf_advance_MF, mul, mr1]
  · rw [writeResult_mf_advance_MF, add, mr1]
  · rw [writeResult_mf_advance_MF, sub, mr1]

/-! ### MRCLR and the forms left out -/

/-- Settles O36: MRCLR writes the result 0 to MR, and 0 fits 32 bits (R154). -/
theorem mrclrClearsMrAndMv : Obligations.MrclrClearsMrAndMv := by
  intro s
  have fits : mvOf 0 = false := by decide
  rw [← fits]
  exact congrArg Host.Outcome.next (writeResult_mr_advance 0 s)

/-- Settles O37: the refusals of the shared core by condition and by yop, and that of MRCLR by condition. -/
theorem macFormsLeftOutAreRefused : Obligations.MacFormsLeftOutAreRefused :=
  fun d x y f _ s =>
    ⟨fun hc => ⟨macCore_conditional .mul (mulZeroStop d) d x y f s hc, macCore_conditional .add .macYop d x y f s hc,
        macCore_conditional .sub .macYop d x y f s hc, if_neg hc⟩,
      macCore_zero .mul .clearOfMf .mf x f s, macCore_zero .mul .macYop .mr x f s, macCore_zero .add .macYop d x f s,
      macCore_zero .sub .macYop d x f s⟩

end Sys2Proof.Machine
end

section
/-! Register access (43_register_access.md rules R171 to R182): reads and writes over the DMD bus, the sections of MR
with numbers, ASTAT as a bus word, the accesses without a path, and SetMode. -/

namespace Sys2Proof.Machine

/-! ### Reads -/

theorem exec_busRead {r : Reg} (hr : r.dmdReadable = true) (s : State) :
    exec (.busRead r) s = .next (s.emit (busValue r s)).advance := by
  have read : dmdRead r s = some (busValue r s) := by rw [dmdRead_eq, if_pos hr]
  change finishRead (dmdRead r s) s = _
  rw [read]
  rfl

/-- Settles O38: a readable register drives its bus value, which the read hands out (R172, R173). -/
theorem busReadHandsOutTheRegister : Obligations.BusReadHandsOutTheRegister :=
  fun _ s hr => exec_busRead hr s

/-! ### ASTAT -/

/-- Settles O40: the word handed out is the packed form of the flags, with a free word between them (R178). -/
theorem astatReadPlacesEachFlag : Obligations.AstatReadPlacesEachFlag :=
  fun s => ⟨packAstat Config.astatLayout s.astat (Config.freeWord s.draws), rfl, packAstat_position _ _ _⟩

/-- Settles O41: the flags become the unpacked word (R179). -/
theorem astatWriteTakesEachFlag : Obligations.AstatWriteTakesEachFlag :=
  fun v _ => ⟨_, rfl, unpackAstat_get Config.astatLayout v, rfl⟩

/-- Settles O42: packing what was unpacked gives the written bits at the flags' positions, whatever the free word. -/
theorem astatReadAfterWriteGivesTheFlags : Obligations.AstatReadAfterWriteGivesTheFlags :=
  fun v _ => ⟨_, _, _, rfl, rfl, rfl, pack_unpack_position Config.astatLayout v _⟩

/-! ### Writes of the 16-bit registers -/

theorem State.setAlu_advance (s : State) (a : AluRegs) :
    (s.setAlu a).advance = { s.setAlu a with pc := s.pc + 1 } := by
  simp [State.advance]

/-- Settles O43: a write of the copy in use and the advance of pc, for each register (R174). -/
theorem busWriteWritesTheRegister : Obligations.BusWriteWritesTheRegister := by
  intro v s
  have alu (a : AluRegs) := congrArg (Host.Outcome.next (φ := Fault) (ρ := Refusal)) (s.setAlu_advance a)
  have mac (m : MacRegs) := congrArg (Host.Outcome.next (φ := Fault) (ρ := Refusal)) (s.setMac_advance m)
  exact ⟨alu _, alu _, alu _, alu _, alu _, mac _, mac _, mac _, mac _⟩

/-! ### Writes of the sections of MR -/

theorem setMR_advance_MR (s : State) (m : Acc) : (s.setMR m).advance.mac.MR = m := by simp

/-- A write of MR, the advance of pc, and nothing else. -/
theorem setMR_advance_frame (s : State) (m : Acc) :
    let t := (s.setMR m).advance
    t = { s.setMac { s.mac with MR := t.mac.MR } with pc := s.pc + 1 } := by
  simp only [setMR_advance_MR]
  exact s.setMac_advance _

/-- MR after a bus write of MR1 (R174, R177): MR0 is kept, MR2 is kept or the sign of the new MR1. -/
theorem loadMr1_toNat (signExtends : Bool) (m : Acc) (v : Word) :
    (loadMr1 signExtends m v).toNat =
      (if signExtends then (if 2 ^ 15 ≤ v.toNat then 0xFF else 0) else m.toNat / 2 ^ 32) * 2 ^ 32 +
        v.toNat * 2 ^ 16 + m.toNat % 2 ^ 16 := by
  have := v.isLt
  cases signExtends with
  | false => exact setMr1_toNat m v
  | true =>
    rw [loadMr1, if_pos rfl, setMr2_toNat, setMr1_toNat, msb_eq_decide_toNat]
    by_cases negative : 2 ^ 15 ≤ v.toNat
    · simp only [negative, decide_true, if_true, BitVec.toNat_ofNat]
      omega
    · simp only [negative, decide_false, Bool.false_eq_true, if_true, if_false, BitVec.toNat_ofNat]
      omega

/-- Settles O44: the written section with numbers, and the frame of a write of MR (R174, R177). -/
theorem busWriteOfMr0AndMr1 : Obligations.BusWriteOfMr0AndMr1 := by
  intro v s
  refine ⟨⟨_, rfl, ?_, setMR_advance_frame s _⟩, ⟨_, rfl, ?_, setMR_advance_frame s _⟩⟩
  · rw [setMR_advance_MR, setMr0_toNat]
  · rw [setMR_advance_MR, loadMr1_toNat]

theorem loadMr2_toNat (m : Acc) (v : Word) :
    (loadMr2 m v).toNat = v.toNat % 2 ^ 8 * 2 ^ 32 + m.toNat % 2 ^ 32 := by
  rw [loadMr2, setMr2_toNat, BitVec.extractLsb'_toNat, Nat.shiftRight_zero]

/-- Settles O45: both spellings are the write of MR with its upper byte replaced (R175). -/
theorem busWriteOfMr2TakesTheLowByte : Obligations.BusWriteOfMr2TakesTheLowByte := by
  intro v s
  refine ⟨_, rfl, rfl, ?_, setMR_advance_frame s _⟩
  rw [setMR_advance_MR, loadMr2_toNat]

/-! ### A read after a write -/

/-- What MR2 drives after a write of it: the low byte of the value, sign-extended (R172, R175). -/
theorem xbusMr2_loadMr2 (m : Acc) (v : Word) :
    xbusMr2 (loadMr2 m v) = BitVec.ofInt 16 ((v.toNat : Int).bmod (2 ^ 8)) := by
  have byte : (v.extractLsb' 0 8).toInt = (v.toNat : Int).bmod (2 ^ 8) := by
    rw [BitVec.toInt_eq_toNat_bmod, BitVec.extractLsb'_toNat, Nat.shiftRight_zero, Int.natCast_emod]
    exact Int.emod_bmod ..
  have lower := Int.le_bmod (x := v.toNat) (m := 2 ^ 8) (by decide)
  have upper := Int.bmod_lt (x := v.toNat) (m := 2 ^ 8) (by decide)
  apply BitVec.eq_of_toInt_eq
  rw [xbusMr2, loadMr2, mr2_setMr2, BitVec.toInt_signExtend_of_le (by omega), byte, BitVec.toInt_ofInt]
  exact (Int.bmod_eq_of_le (by omega) (by omega)).symm

/-- The state a bus write of a writable register ends in, its outputs and what the register then drives. -/
theorem dmdWrite_then_dmdRead {r : Reg} (v : Word) (s : State) (hr : r.dmdWritable = true) :
    ∃ t, dmdWrite r v s = some t ∧ t.outputs = s.outputs ∧
      dmdRead r t = some (if r = .mr2 then BitVec.ofInt 16 ((v.toNat : Int).bmod (2 ^ 8)) else v) := by
  cases r with
  | af | sr0 | sr1 | mf | mstat => cases hr
  | mr2 => exact ⟨_, rfl, by simp, by simp [dmdRead, xbusMr2_loadMr2]⟩
  | _ => exact ⟨_, rfl, by simp, by simp [dmdRead]⟩

theorem dmdRead_advance (r : Reg) (s : State) : dmdRead r s.advance = dmdRead r s := by
  cases r <;> rfl

/-- Settles O46: the register drives what was written to it, MR2 the low byte, sign-extended (R172 to R175). -/
theorem busReadAfterBusWriteGivesTheValue : Obligations.BusReadAfterBusWriteGivesTheValue := by
  intro r v s hr
  obtain ⟨t, write, outputs, read⟩ := dmdWrite_then_dmdRead v s hr
  refine ⟨t.advance, _, congrArg finishWrite write,
    congrArg (finishRead · t.advance) ((dmdRead_advance r t).trans read), ?_⟩
  rw [State.advance_outputs, State.emit_outputs, State.advance_outputs, outputs]

/-! ### Accesses without a path, and SetMode -/

/-- Settles O48: the bus functions have no path for these registers (R171, R176). -/
theorem accessesWithoutABusPathAreRefused : Obligations.AccessesWithoutABusPathAreRefused := by
  intro r v s
  refine ⟨fun noDmd => ?_, fun ⟨notMy0, notMy1⟩ => ?_⟩
  · simp only [List.mem_cons, List.not_mem_nil, or_false] at noDmd
    obtain rfl | rfl | rfl | rfl | rfl := noDmd <;> exact ⟨rfl, rfl⟩
  · cases r with
    | my0 => exact absurd rfl notMy0
    | my1 => exact absurd rfl notMy1
    | _ => exact ⟨rfl, rfl⟩

/-- Settles O49: each named bit has its arm in the write of MSTAT (R180). -/
theorem setModeWritesOneModeBit : Obligations.SetModeWritesOneModeBit :=
  fun _ _ => ⟨rfl, rfl, rfl⟩

/-- Settles O50: the write of MSTAT has an arm for bits 0, 2 and 4 only (R30, R180). -/
theorem setModeOfAnotherBitIsRefused : Obligations.SetModeOfAnotherBitIsRefused := by
  intro bit b s not0 not2 not4
  have noBit : writeMstatBit bit b s.mstat = none := by
    rw [← Option.isNone_iff_eq_none, ← Option.not_isSome, writeMstatBit_isSome]
    simp [mstatBits, not0, not2, not4]
  simp only [exec, execSetMode, noBit]

end Sys2Proof.Machine
end
